-- ==== Sys2Proof/Word.lean ====
section
/-! DEFINITION. The words of the hardware and the fixed sizes of 00_scope.md rule R9. -/

namespace Sys2Proof

/-- One byte: a general register, a byte of memory, a pixel, a timer counter (R9). -/
abbrev Byte := BitVec 8

/-- Sixteen bits: `idx`, `pc`, an instruction word, a stack entry (R9). -/
abbrev Half := BitVec 16

/-- A 4-bit field of an instruction word: a register index or a row count (30_encoding.md R71). -/
abbrev Nibble := BitVec 4

/-- The 12-bit address field `nnn` (30_encoding.md R71). -/
abbrev Addr12 := BitVec 12

/-- `MEM_SIZE`: addresses 0x000 to 0xFFF (R9). -/
abbrev memSize : Nat := 4096

/-- The bytes of the font region, 0x000 to 0x04F (R9: `FONT_BASE`, `FONT_END`). -/
abbrev fontSize : Nat := 80

/-- `PROG_BASE` (R9). -/
abbrev progBase : Nat := 0x200

/-- The longest program image the load port accepts (20_memory.md R57). -/
abbrev maxImage : Nat := memSize - progBase

/-- `SCREEN_W` (R9). -/
abbrev screenW : Nat := 64

/-- `SCREEN_H` (R9). -/
abbrev screenH : Nat := 32

/-- `FLAG_REG`: V[F], the register that doubles as the flag byte (R9, 10_state.md R31). -/
abbrev flagReg : Nibble := 0xF#4

/-- `PIXEL_OFF` (R9). -/
abbrev pixelOff : Byte := 0#8

/-- `PIXEL_ON` (R9). -/
abbrev pixelOn : Byte := 255#8

/-- The two physical framebuffer slots `FB[0]` and `FB[1]` (00_scope.md R18, 10_state.md R38). -/
inductive Slot where
  | zero
  | one
  deriving DecidableEq, Repr, Inhabited

end Sys2Proof
end

