-- ==== Sys2Proof/Syntax.lean ====
section
/-! DEFINITION. The instructions: one constructor per mnemonic of spec/opcode_table.json (30_encoding.md rule R73, and the
unknown-opcode no-op of 40_cycle.md R94). Don't-care bits are no operand (R80, log entry 21). -/

namespace Sys2Proof

/-- `x` and `y` name V[x] and V[y]; `nn`, `n` and `nnn` are the unsigned fields of 30_encoding.md R71 and R72. -/
inductive Instr where
  /-- 0000 -/
  | nop
  /-- 0*E0 -/
  | cls
  /-- 1nnn -/
  | jp (nnn : Addr12)
  /-- 3xnn -/
  | seImm (x : Nibble) (nn : Byte)
  /-- 4xnn -/
  | sneImm (x : Nibble) (nn : Byte)
  /-- 5xy* -/
  | seReg (x y : Nibble)
  /-- 6xnn -/
  | ldImm (x : Nibble) (nn : Byte)
  /-- 7xnn -/
  | addImm (x : Nibble) (nn : Byte)
  /-- 8xy0 -/
  | ldReg (x y : Nibble)
  /-- 8xy1 -/
  | orReg (x y : Nibble)
  /-- 8xy2 -/
  | andReg (x y : Nibble)
  /-- 8xy3 -/
  | xorReg (x y : Nibble)
  /-- 8xy4 -/
  | addReg (x y : Nibble)
  /-- 8xy5 -/
  | sub (x y : Nibble)
  /-- 8xy6 -/
  | shr (x y : Nibble)
  /-- 8xy7 -/
  | subn (x y : Nibble)
  /-- 8xyE -/
  | shl (x y : Nibble)
  /-- 9xy* -/
  | sneReg (x y : Nibble)
  /-- Annn -/
  | ldI (nnn : Addr12)
  /-- Cxnn -/
  | rnd (x : Nibble) (nn : Byte)
  /-- Dxyn -/
  | drw (x y n : Nibble)
  /-- Fx1E -/
  | addI (x : Nibble)
  /-- Fx65 -/
  | ldVxI (x : Nibble)
  /-- every word of the unknown-opcode space (30_encoding.md R81); the UnknownOp event carries the word -/
  | unknown (w : Half)
  deriving DecidableEq, Repr

end Sys2Proof
end

