-- ==== Sys2Proof/Decode.lean ====
section
/-! DEFINITION. The instruction word (30_encoding.md): its fields, the decoder in the dispatch order of rules R75 to R79, the
encoder, the words as bytes, and the rows of spec/opcode_table.json as data. -/

namespace Sys2Proof

/-! ## Fields (R71) -/

/-- `op`, bits 15..12. -/
def opField (w : Half) : Nibble := w.extractLsb' 12 4

/-- `x`, bits 11..8. -/
def xField (w : Half) : Nibble := w.extractLsb' 8 4

/-- `y`, bits 7..4. -/
def yField (w : Half) : Nibble := w.extractLsb' 4 4

/-- `n`, bits 3..0. -/
def nField (w : Half) : Nibble := w.extractLsb' 0 4

/-- `nn`, bits 7..0. -/
def nnField (w : Half) : Byte := w.extractLsb' 0 8

/-- `nnn`, bits 11..0. -/
def nnnField (w : Half) : Addr12 := w.extractLsb' 0 12

/-! ## Decode -/

/-- Class 0x0 after the zero-word test (R77): `nn = 0xE0` is CLS whatever `x` is. -/
def decodeClass0 (w : Half) : Instr :=
  if nnField w = 0xE0#8 then .cls else .unknown w

/-- Class 0x8: secondary dispatch on `n` (R78). -/
def decodeClass8 (w : Half) : Instr :=
  match nField w with
  | 0x0#4 => .ldReg (xField w) (yField w)
  | 0x1#4 => .orReg (xField w) (yField w)
  | 0x2#4 => .andReg (xField w) (yField w)
  | 0x3#4 => .xorReg (xField w) (yField w)
  | 0x4#4 => .addReg (xField w) (yField w)
  | 0x5#4 => .sub (xField w) (yField w)
  | 0x6#4 => .shr (xField w) (yField w)
  | 0x7#4 => .subn (xField w) (yField w)
  | 0xE#4 => .shl (xField w) (yField w)
  | _ => .unknown w

/-- Class 0xF: secondary dispatch on `nn` (R79). -/
def decodeClassF (w : Half) : Instr :=
  if nnField w = 0x1E#8 then .addI (xField w)
  else if nnField w = 0x65#8 then .ldVxI (xField w)
  else .unknown w

/-- Primary dispatch on `op` (R76). -/
def decodeClass (w : Half) : Instr :=
  match opField w with
  | 0x0#4 => decodeClass0 w
  | 0x1#4 => .jp (nnnField w)
  | 0x2#4 => .unknown w
  | 0x3#4 => .seImm (xField w) (nnField w)
  | 0x4#4 => .sneImm (xField w) (nnField w)
  | 0x5#4 => .seReg (xField w) (yField w)
  | 0x6#4 => .ldImm (xField w) (nnField w)
  | 0x7#4 => .addImm (xField w) (nnField w)
  | 0x8#4 => decodeClass8 w
  | 0x9#4 => .sneReg (xField w) (yField w)
  | 0xA#4 => .ldI (nnnField w)
  | 0xB#4 => .unknown w
  | 0xC#4 => .rnd (xField w) (nnField w)
  | 0xD#4 => .drw (xField w) (yField w) (nField w)
  | 0xE#4 => .unknown w
  | _ => decodeClassF w

/-- The instruction a word is: total over all 65536 words (R74), the zero word first (R75). -/
def decode (w : Half) : Instr :=
  if w = 0x0000#16 then .nop else decodeClass w

/-- Big-endian join: the byte at the lower address is bits 15..8 (20_memory.md R53). -/
def joinWord (hi lo : Byte) : Half := hi ++ lo

/-- The byte of a word at the lower address. -/
def hiByte (w : Half) : Byte := w.extractLsb' 8 8

/-- The byte of a word at the higher address. -/
def loByte (w : Half) : Byte := w.extractLsb' 0 8

/-- Why bytes do not decode: every word decodes (R74), so only a missing byte can be named. -/
inductive DecodeError where
  /-- fewer than the two bytes of an instruction word (R70) -/
  | needsTwoBytes
  deriving DecidableEq, Repr

/-- Decode the instruction at the head of a byte sequence, with the bytes after it (R70, R87). -/
def decodeBytes : List Byte → Except DecodeError (Instr × List Byte)
  | hi :: lo :: rest => .ok (decode (joinWord hi lo), rest)
  | _ => .error .needsTwoBytes

/-! ## Encode (R85; don't-care bits are 0, R84) -/

/-- A word of class `op` with the address field `nnn`. -/
def wordNnn (op : Nibble) (nnn : Addr12) : Half := op ++ nnn

/-- A word of class `op` with the fields `x` and `nn`. -/
def wordXNn (op x : Nibble) (nn : Byte) : Half := (op ++ x) ++ nn

/-- A word of class `op` with the fields `x`, `y` and `n`. -/
def wordXYN (op x y n : Nibble) : Half := ((op ++ x) ++ y) ++ n

/-- The word of an instruction. -/
def encode : Instr → Half
  | .nop => 0x0000#16
  | .cls => 0x00E0#16
  | .jp nnn => wordNnn 0x1#4 nnn
  | .seImm x nn => wordXNn 0x3#4 x nn
  | .sneImm x nn => wordXNn 0x4#4 x nn
  | .seReg x y => wordXYN 0x5#4 x y 0x0#4
  | .ldImm x nn => wordXNn 0x6#4 x nn
  | .addImm x nn => wordXNn 0x7#4 x nn
  | .ldReg x y => wordXYN 0x8#4 x y 0x0#4
  | .orReg x y => wordXYN 0x8#4 x y 0x1#4
  | .andReg x y => wordXYN 0x8#4 x y 0x2#4
  | .xorReg x y => wordXYN 0x8#4 x y 0x3#4
  | .addReg x y => wordXYN 0x8#4 x y 0x4#4
  | .sub x y => wordXYN 0x8#4 x y 0x5#4
  | .shr x y => wordXYN 0x8#4 x y 0x6#4
  | .subn x y => wordXYN 0x8#4 x y 0x7#4
  | .shl x y => wordXYN 0x8#4 x y 0xE#4
  | .sneReg x y => wordXYN 0x9#4 x y 0x0#4
  | .ldI nnn => wordNnn 0xA#4 nnn
  | .rnd x nn => wordXNn 0xC#4 x nn
  | .drw x y n => wordXYN 0xD#4 x y n
  | .addI x => wordXNn 0xF#4 x 0x1E#8
  | .ldVxI x => wordXNn 0xF#4 x 0x65#8
  | .unknown w => w

/-- The two bytes of an instruction, high byte first (R87). -/
def encodeBytes (i : Instr) : List Byte := [hiByte (encode i), loByte (encode i)]

/-- A word with its don't-care bits at 0 (R80, R84): bits 11..8 of CLS, bits 3..0 of classes 0x5 and 0x9. -/
def canonicalWord (w : Half) : Half :=
  if opField w = 0x0#4 ∧ nnField w = 0xE0#8 then w &&& 0xF0FF#16
  else if opField w = 0x5#4 ∨ opField w = 0x9#4 then w &&& 0xFFF0#16
  else w

/-! ## spec/opcode_table.json as data -/

/-- One row of the opcode table: a word `w` matches when `w &&& mask = pattern`. -/
structure OpcodeRow where
  mnemonic : String
  mask : Half
  pattern : Half
  deriving DecidableEq, Repr

/-- The rows of the table, in the order of their priority and then as the table lists them. -/
def opcodeTable : List OpcodeRow := [
  ⟨"NOP", 0xFFFF, 0x0000⟩,
  ⟨"CLS", 0xF0FF, 0x00E0⟩,
  ⟨"JP", 0xF000, 0x1000⟩,
  ⟨"SE_imm", 0xF000, 0x3000⟩,
  ⟨"SNE_imm", 0xF000, 0x4000⟩,
  ⟨"SE_reg", 0xF000, 0x5000⟩,
  ⟨"LD_imm", 0xF000, 0x6000⟩,
  ⟨"ADD_imm", 0xF000, 0x7000⟩,
  ⟨"LD_reg", 0xF00F, 0x8000⟩,
  ⟨"OR", 0xF00F, 0x8001⟩,
  ⟨"AND", 0xF00F, 0x8002⟩,
  ⟨"XOR", 0xF00F, 0x8003⟩,
  ⟨"ADD_reg", 0xF00F, 0x8004⟩,
  ⟨"SUB", 0xF00F, 0x8005⟩,
  ⟨"SHR", 0xF00F, 0x8006⟩,
  ⟨"SUBN", 0xF00F, 0x8007⟩,
  ⟨"SHL", 0xF00F, 0x800E⟩,
  ⟨"SNE_reg", 0xF000, 0x9000⟩,
  ⟨"LD_I", 0xF000, 0xA000⟩,
  ⟨"RND", 0xF000, 0xC000⟩,
  ⟨"DRW", 0xF000, 0xD000⟩,
  ⟨"ADD_I", 0xF0FF, 0xF01E⟩,
  ⟨"LD_VX_I", 0xF0FF, 0xF065⟩,
  ⟨"UNKNOWN", 0xF000, 0x2000⟩,
  ⟨"UNKNOWN", 0xF000, 0xB000⟩,
  ⟨"UNKNOWN", 0xF000, 0xE000⟩,
  ⟨"UNKNOWN", 0xF00F, 0x8008⟩,
  ⟨"UNKNOWN", 0xF00F, 0x8009⟩,
  ⟨"UNKNOWN", 0xF00F, 0x800A⟩,
  ⟨"UNKNOWN", 0xF00F, 0x800B⟩,
  ⟨"UNKNOWN", 0xF00F, 0x800C⟩,
  ⟨"UNKNOWN", 0xF00F, 0x800D⟩,
  ⟨"UNKNOWN", 0xF00F, 0x800F⟩,
  ⟨"UNKNOWN", 0x0000, 0x0000⟩]

/-- The mnemonic of the first row of `rows` that a word matches. -/
def firstMatch (w : Half) : List OpcodeRow → Option String
  | [] => none
  | r :: rows => if w &&& r.mask = r.pattern then some r.mnemonic else firstMatch w rows

/-- The table's mnemonic of an instruction. -/
def Instr.mnemonic : Instr → String
  | .nop => "NOP"
  | .cls => "CLS"
  | .jp _ => "JP"
  | .seImm _ _ => "SE_imm"
  | .sneImm _ _ => "SNE_imm"
  | .seReg _ _ => "SE_reg"
  | .ldImm _ _ => "LD_imm"
  | .addImm _ _ => "ADD_imm"
  | .ldReg _ _ => "LD_reg"
  | .orReg _ _ => "OR"
  | .andReg _ _ => "AND"
  | .xorReg _ _ => "XOR"
  | .addReg _ _ => "ADD_reg"
  | .sub _ _ => "SUB"
  | .shr _ _ => "SHR"
  | .subn _ _ => "SUBN"
  | .shl _ _ => "SHL"
  | .sneReg _ _ => "SNE_reg"
  | .ldI _ => "LD_I"
  | .rnd _ _ => "RND"
  | .drw _ _ _ => "DRW"
  | .addI _ => "ADD_I"
  | .ldVxI _ => "LD_VX_I"
  | .unknown _ => "UNKNOWN"

/-! ## The table's numbering of bits -/

/-- The word whose bits are `w`, `nbits` of them: bit 0 is the word's least significant bit, the bits above `nbits` are 0. -/
def tableWord (nbits w : Nat) : Half := BitVec.ofNat 16 (w % 2 ^ nbits)

/-- The bytes of that word as the hardware stores them, the first at the lower address. -/
def tableBytes (nbits w : Nat) : List Byte := [hiByte (tableWord nbits w), loByte (tableWord nbits w)]

/-- The instruction the decoder reads from a table word laid out as bytes. -/
def decodeTableWord (nbits w : Nat) : Option Instr :=
  match decodeBytes (tableBytes nbits w) with
  | .ok (i, _) => some i
  | .error _ => none

end Sys2Proof
end

