-- ==== Sys2Proof/Config.lean ====
section
/-! DEFINITION. What is fixed for one machine and the spec leaves open: the open parameters of 00_scope.md rule R11, and the
free values (the random draw of R12, the order of CLS's two clears of 44_display.md R148, what the outside agents do of R27)
with the types of those agents' requests. None of the constants has a body: no proof can see a value, and a statement about
them holds for every value. -/

namespace Sys2Proof

/-- The values of `SUB_UNDERFLOW` (00_scope.md R11, R20). -/
inductive SubUnderflow where
  | wrap
  | saturate
  deriving DecidableEq, Repr, Inhabited

/-- The values of `P_8XY5_OPERANDS` (00_scope.md R11, 42_alu.md R120). -/
inductive SubOperands where
  | reread
  | latched
  deriving DecidableEq, Repr, Inhabited

/-- The values of `IDX_OVERFLOW` (00_scope.md R11, 43_index_memory.md R131). -/
inductive IdxOverflow where
  | wrap
  | fault
  deriving DecidableEq, Repr, Inhabited

namespace Machine

/-- Which timer counter a `write_timer` names (60_exceptions.md R171). -/
inductive Timer where
  | delay
  | sound
  deriving DecidableEq, Repr, Inhabited

/-- Which schedule a `stop` request ends (40_cycle.md R99). -/
inductive Stopped where
  | driver
  | ticks
  deriving DecidableEq, Repr, Inhabited

/-- The ports on the framebuffer, the timers and the status, each one transaction that can also fall between the two clears of
a CLS (70_reset_and_hazards.md R184, R194). -/
inductive SharedOp where
  | tick
  | readTimers
  | writeTimer (which : Timer) (v : Byte)
  | readCurrent
  | swap
  | readStatus
  deriving DecidableEq, Repr, Inhabited

/-- A request of an outside agent (70_reset_and_hazards.md R184). `rand()` is not among them: it is the free value inside
CXNN. -/
inductive Request where
  | step
  | shared (op : SharedOp)
  | reset
  | load (image : List Byte)
  | stop (which : Stopped)
  deriving DecidableEq, Repr, Inhabited

end Machine

namespace Config

/-- `SUB_UNDERFLOW`: the result of the bare 8-bit subtraction that underflows (R20, D10). Log entry 1. -/
opaque subUnderflow : SubUnderflow

/-- `P_8XY5_OPERANDS`: whether 8XY5's subtraction reads its operands again after its write of V[F] (R120, D11). Log entry 2. -/
opaque subOperands : SubOperands

/-- `DRAW_VF_CLEAR`: whether DXYN writes 0 to V[F] when it erases nothing (44_display.md R150, D13). Log entry 3. -/
opaque drawVfClear : Bool

/-- `IDX_OVERFLOW`: what FX1E does when the sum passes 0xFFFF (43_index_memory.md R131, D20). Log entry 4. -/
opaque idxOverflow : IdxOverflow

/-- One less than `STACK_DEPTH`, so that the depth is at least 1 as R11 says. Log entry 5. -/
opaque stackDepthPred : Nat

/-- `STACK_DEPTH`, a natural number of at least 1 (R11, 10_state.md R35, D6). -/
def stackDepth : Nat := stackDepthPred + 1

/-- `FONT`: the 80 bytes of 0x000 to 0x04F after reset (20_memory.md R55, D33). Log entry 6. -/
opaque font : Fin fontSize → Byte

/-- The bytes `RandomDraw()` answers (00_scope.md R12, D34): the free value at a count that every draw advances.
Log entry 7. -/
opaque randomByte : Nat → Byte

/-- The slot that a CLS clears first (44_display.md R148 fixes no order, D25): a free value at the same count.
Log entry 8. -/
opaque clearedFirst : Nat → Slot

/-- The requests of outside agents that do anything at any time (R27, 70_reset_and_hazards.md R186): free values at the same
count. Log entry 11. -/
opaque request : Nat → Machine.Request

/-- The transactions of such agents that fall between the two clears of a CLS (44_display.md R148): free values at the same
count. Log entry 12. -/
opaque inside : Nat → List Machine.SharedOp

end Config

end Sys2Proof
end

