-- ==== Sys2Proof/Machine/State.lean ====
section
/-! DEFINITION. The state of the machine as plain data (10_state.md, 70_reset_and_hazards.md rule R181), what the block
sends out (R184), what the outside agents do, the reasons a step can stop, and the state after reset. -/

namespace Sys2Proof.Machine

/-- The fault causes of 60_exceptions.md R162. -/
inductive Cause where
  /-- a fetch at `pc + 1 ≥ 0x1000` -/
  | fetchOob
  /-- FX65 with `idx + x ≥ 0x1000` -/
  | loadOob
  /-- DXYN with `n > 0` and `idx + n > 0x1000` -/
  | spriteOob
  /-- FX1E with `idx + V[x] > 0xFFFF` under `IDX_OVERFLOW = FAULT` -/
  | idxOverflow
  deriving DecidableEq, Repr

/-- The interpreter's status: `RUNNING | FAULTED(cause, addr)` (10_state.md R36). -/
inductive Status where
  | running
  | faulted (cause : Cause) (addr : Half)
  deriving DecidableEq, Repr

/-- One framebuffer slot: 32 stored rows of 64 pixel bytes (10_state.md R38). -/
abbrev Grid := Vector (Vector Byte screenW) screenH

/-- A grid whose every pixel is `PIXEL_OFF`. -/
def blankGrid : Grid := Vector.replicate screenH (Vector.replicate screenW pixelOff)

/-- Memory as (address, byte) pairs, addresses strictly rising, no pair equal to what an unlisted address reads as
(`Memory.wf` in Machine/Ops.lean). -/
abbrev Memory := List Host.Cell

/-- What the block sends out: the `UnknownOp(a, w)` event (40_cycle.md R94) and the responses of its ports
(70_reset_and_hazards.md R184). -/
inductive Output where
  | unknownOp (a w : Half)
  | timers (dt st : Byte)
  | frame (g : Grid)
  | status (st : Status)
  | loadAccepted
  deriving DecidableEq, Repr

/-- How far the launch has come (70_reset_and_hazards.md R182): at most one load, before the first cycle. -/
inductive Boot where
  | awaitingLoad
  | loaded
  | started
  deriving DecidableEq, Repr

/-- The outside agents where the lists of State are at their end: the same requests over and over, with the same transactions
between the clears of every CLS, or anything at all (00_scope.md R27, 70_reset_and_hazards.md R186). -/
inductive Outside where
  /-- the listed requests again and again; with none listed, the driver's step() alone -/
  | repeating (requests : List Request) (inside : List SharedOp)
  /-- free values, a fresh one each time -/
  | free
  deriving DecidableEq, Repr

/-- The state of the block (10_state.md), what its ports need (log entries 14 and 15), and five fields of the model's own
(log entries 7, 11, 12, 13). -/
structure State where
  /-- V0..VF; V[F] is the flag byte (R30, R31) -/
  v : Vector Byte 16
  /-- the index register (R33) -/
  idx : Half
  /-- the program counter (R34) -/
  pc : Half
  /-- the call stack's entries other than 0, as (entry number, entry), numbers rising (R35, log entry 5) -/
  stack : List (Nat × Half)
  /-- the stack pointer (R35) -/
  sp : Nat
  /-- RUNNING or FAULTED (R36) -/
  status : Status
  /-- the delay counter DT (R37) -/
  dt : Byte
  /-- the sound counter ST (R37) -/
  st : Byte
  /-- FB[0] (R38) -/
  fb0 : Grid
  /-- FB[1] (R38) -/
  fb1 : Grid
  /-- the current slot (R39) -/
  cur : Slot
  /-- M (R40) -/
  mem : Memory
  /-- whether a program may still be loaded (20_memory.md R57, 70_reset_and_hazards.md R182) -/
  boot : Boot
  /-- the cycle driver was asked to stop (40_cycle.md R99) -/
  driverStopped : Bool
  /-- the tick source was asked to stop (40_cycle.md R99) -/
  tickStopped : Bool
  /-- the MODEL'S own: where the next free value is taken (00_scope.md R12, 44_display.md R148) -/
  free : Nat
  /-- the MODEL'S own: the outside agents' coming requests, oldest first (00_scope.md R27) -/
  agenda : List Request
  /-- the MODEL'S own: for each coming CLS the transactions that fall between its two clears, oldest first (44_display.md
  R148) -/
  between : List (List SharedOp)
  /-- the MODEL'S own: what comes after the end of `agenda` and of `between`, without end (00_scope.md R27) -/
  outside : Outside
  /-- the MODEL'S own: what the block has sent out, newest first; no step reads it (40_cycle.md R94) -/
  outputs : List Output
  deriving DecidableEq, Repr

/-- The reasons a step can stop with a fault: none. A fault of the spec is not a stop of the model: `raise Fault` (00_scope.md
R17, 60_exceptions.md R161) enters the status FAULTED, which is a next state (log entry 19; safe, the type has no
constructor). -/
inductive Fault where
  deriving DecidableEq, Repr

/-- The reasons a step can be refused. -/
inductive Refusal where
  /-- raised by an arm of `exec` whose instruction has no meaning in the model; safe; no arm raises it -/
  | notModelled (mnemonic : String)
  /-- raised by the load port for an image of more than 3584 bytes: "the load does not happen and the model has no meaning for
  that launch" (20_memory.md R57, D44); safe -/
  | loadTooLong (length : Nat)
  /-- raised by the load port for a load that is not the one load between reset and the first cycle (20_memory.md R57, D44);
  safe -/
  | loadOutOfTurn
  /-- raised by clear and draw for a selector that names a slot other than 0 or 1 (44_display.md R142, D15); safe; no
  instruction selects one -/
  | noSuchSlot (k : Nat)
  deriving DecidableEq, Repr

/-- The state after reset (70_reset_and_hazards.md R181). Memory lists nothing: an unlisted address reads as its reset
contents. The model's own lists are empty, and after them come the driver's cycles alone (log entries 7, 11, 12, 13). -/
def State.reset : State where
  v := Vector.replicate 16 0#8
  idx := 0#16
  pc := 0x0200#16
  stack := []
  sp := 0
  status := .running
  dt := 0#8
  st := 0#8
  fb0 := blankGrid
  fb1 := blankGrid
  cur := .zero
  mem := []
  boot := .awaitingLoad
  driverStopped := false
  tickStopped := false
  free := 0
  agenda := []
  between := []
  outside := .repeating [] []
  outputs := []

end Sys2Proof.Machine
end

