-- ==== Sys2Proof/Machine/Ops.lean ====
section
/-! DEFINITION. The named operations over registers and memory, and the entry into FAULTED (00_scope.md rules R14 to R17,
20_memory.md, 60_exceptions.md). -/

namespace Sys2Proof.Machine

/-! ## Outcomes -/

/-- The outcome of one step of this machine, or of a part of one that answers an `α`. -/
abbrev Result (α : Type) := Host.Outcome α Fault Refusal

/-- Go on with the answer of a part of a step, or stop as it stopped. -/
def andThen {α β : Type} (r : Result α) (k : α → Result β) : Result β :=
  match r with
  | .next a => k a
  | .fault f => .fault f
  | .refused f => .refused f

/-! ## General registers (00_scope.md R14, 10_state.md R30) -/

/-- `V[r]`. Every index a field can name exists (30_encoding.md R72). -/
def State.reg (s : State) (r : Nibble) : Byte := s.v[r.toNat]'r.isLt

/-- `V[r] <- b`. -/
def State.setReg (s : State) (r : Nibble) (b : Byte) : State := { s with v := s.v.set r.toNat b r.isLt }

/-- `pc <- a`. -/
def State.setPc (s : State) (a : Half) : State := { s with pc := a }

/-- `idx <- a`. -/
def State.setIdx (s : State) (a : Half) : State := { s with idx := a }

/-! ## Memory (20_memory.md) -/

/-- The reset contents of an address, which an unlisted address reads as: `FONT[a]` below 0x050 and 0 from there (10_state.md
R40, 20_memory.md R55, R56). Log entry 6. -/
def Memory.initial (a : Nat) : Byte := if h : a < fontSize then Config.font ⟨a, h⟩ else 0#8

/-- The byte a memory holds at an address. Whether the address exists is the caller's check. -/
def Memory.lookup : Memory → Nat → Byte
  | [], a => Memory.initial a
  | (b, u) :: m, a => if a = b then u else Memory.lookup m a

/-- Write one byte and keep the canonical form: a byte equal to the reset contents is not listed. Whether the address exists is
the caller's check. -/
def Memory.store : Memory → Nat → Byte → Memory
  | [], a, u => if u = Memory.initial a then [] else [(a, u)]
  | (b, w) :: m, a, u =>
    if a < b then (if u = Memory.initial a then (b, w) :: m else (a, u) :: (b, w) :: m)
    else if a = b then (if u = Memory.initial a then m else (a, u) :: m)
    else (b, w) :: Memory.store m a u

/-- The canonical form from an address on: addresses rising, each below `MEM_SIZE`, no byte equal to the reset contents. -/
def Memory.wfFrom : Nat → Memory → Bool
  | _, [] => true
  | lo, (a, u) :: m => decide (lo ≤ a) && decide (a < memSize) && (u != Memory.initial a) && Memory.wfFrom (a + 1) m

/-- The canonical form of a memory. -/
def Memory.wf (m : Memory) : Bool := Memory.wfFrom 0 m

/-- `MemWrite(a, 1, u)` for each byte of a sequence, at rising addresses (20_memory.md R57). -/
def Memory.storeBytes : Memory → Nat → List Byte → Memory
  | m, _, [] => m
  | m, a, u :: us => Memory.storeBytes (Memory.store m a u) (a + 1) us

/-- `MemRead(a, 1)`: nothing is read at an address that is not in memory (00_scope.md R16, 20_memory.md R52). -/
def State.readByte (s : State) (a : Nat) : Option Byte := if a < memSize then some (s.mem.lookup a) else none

/-- The `n` bytes from an address on, in the order of their addresses. -/
def Memory.lookupBytes (m : Memory) (a : Nat) : Nat → List Byte
  | 0 => []
  | n + 1 => m.lookup a :: Memory.lookupBytes m (a + 1) n

/-- `n` bytes from an address on: the whole range is checked before any byte is used, and a range of no byte is in range
(43_index_memory.md R132, 44_display.md R151). Addresses are unbounded and never wrap (20_memory.md R51). -/
def State.readBytes (s : State) (a n : Nat) : Option (List Byte) :=
  if n = 0 ∨ a + n ≤ memSize then some (s.mem.lookupBytes a n) else none

/-- Put the bytes of one instruction word at an address. -/
def State.storeWord (s : State) (a : Nat) (w : Half) : State :=
  { s with mem := s.mem.storeBytes a [hiByte w, loByte w] }

/-! ## The call stack (10_state.md R35) -/

/-- Entry `k` of the call stack: 0 where it is not listed. No instruction reads it. -/
def State.stackEntry (s : State) (k : Nat) : Half := ((s.stack.find? (fun e => e.1 == k)).map (·.2)).getD 0#16

/-- The form of a call stack: entry numbers rising, each below `STACK_DEPTH`, no listed entry 0. -/
def stackWfFrom (depth : Nat) : Nat → List (Nat × Half) → Bool
  | _, [] => true
  | lo, (k, e) :: rest => decide (lo ≤ k) && decide (k < depth) && (e != 0#16) && stackWfFrom depth (k + 1) rest

/-! ## Faults (60_exceptions.md) -/

/-- The code of a cause (R162). -/
def Cause.code : Cause → Nat
  | .fetchOob => 1
  | .loadOob => 2
  | .spriteOob => 3
  | .idxOverflow => 4

/-- `raise Fault(cause, addr)`: the status becomes FAULTED and nothing else is saved anywhere (R161). The one way out is reset
(R165, `hostReset`). -/
def State.raise (s : State) (cause : Cause) (addr : Half) : State := { s with status := .faulted cause addr }

/-! ## Events and free values -/

/-- Send one output. -/
def State.emit (s : State) (o : Output) : State := { s with outputs := o :: s.outputs }

/-- Move on to the next free value (log entries 7 and 8). -/
def State.takeFree (s : State) : State := { s with free := s.free + 1 }

end Sys2Proof.Machine
end

