-- ==== Sys2Proof/Machine/Operands.lean ====
section
/-! DEFINITION. The operand forms (30_encoding.md rule R72, 43_index_memory.md R133): registers by a 4-bit index
(`State.reg`), the immediates `nn` (used as it stands), `n` and `nnn`, and idx plus a small unsigned offset. -/

namespace Sys2Proof.Machine

/-- `zext_16(nnn)`: a jump target or an index value (R72). -/
def zext16 (nnn : Addr12) : Half := nnn.setWidth 16

/-- `n` as an unsigned count of sprite rows, 0 to 15 (R72). -/
def rowCount (n : Nibble) : Nat := n.toNat

/-- `x` as a count of registers, V[0] to V[x] (R72). -/
def regCount (x : Nibble) : Nat := x.toNat + 1

/-- The base of a data access: idx, in unbounded integers (20_memory.md R51). -/
def State.dataBase (s : State) : Nat := s.idx.toNat

/-- The address the instruction under execution was fetched from: fetch has advanced pc by 2 (10_state.md R46). -/
def State.fetchedAt (s : State) : Half := s.pc - 2#16

/-- `pc <- pc + 2` where a condition holds (41_control_flow.md R100). -/
def State.skipIf (s : State) (taken : Bool) : State := if taken then s.setPc (s.pc + 2#16) else s

/-- V[i], V[i+1], ... from a sequence of bytes, one register after the other (43_index_memory.md R132). A byte beyond V[F] has
no register; FX65 never has one. -/
def loadRegsFrom (v : Vector Byte 16) (i : Nat) : List Byte → Vector Byte 16
  | [] => v
  | b :: bs => loadRegsFrom (if h : i < 16 then v.set i b h else v) (i + 1) bs

end Sys2Proof.Machine
end

