-- ==== Sys2Proof/Machine/Flags.lean ====
section
/-! DEFINITION. The arithmetic primitives of 00_scope.md rules R19 to R21 and every value an instruction writes to V[F]
(42_alu.md rule R127, 44_display.md R150). -/

namespace Sys2Proof.Machine

/-- `satadd8(a, b) = min(a + b, 255)` (R19). -/
def satadd8 (a b : Byte) : Byte := BitVec.ofNat 8 (min (a.toNat + b.toNat) 255)

/-- `sub8(a, b)`: the difference, and under underflow what `SUB_UNDERFLOW` says (R20, D10). -/
def sub8 (policy : SubUnderflow) (a b : Byte) : Byte :=
  if b.toNat ≤ a.toNat then a - b
  else match policy with
    | .wrap => a - b
    | .saturate => 0#8

/-- `v >> 1` (R21). -/
def shr1 (v : Byte) : Byte := v >>> (1 : Nat)

/-- `v << 1` on a byte: the bit shifted out is lost (R21). -/
def shl1 (v : Byte) : Byte := v <<< (1 : Nat)

/-- A condition as a flag byte: 1 or 0. -/
def flagOf (c : Bool) : Byte := if c then 1#8 else 0#8

/-- 8XY4: whether the 9-bit sum passes 255 (42_alu.md R117). -/
def addSaturates (a b : Byte) : Bool := decide (255 < a.toNat + b.toNat)

/-- 8XY5 and 8XY7 compare unsigned: `a > b` (42_alu.md R119, R122). -/
def above (a b : Byte) : Bool := decide (b.toNat < a.toNat)

/-- 8XY6: the bit shifted out, 0 or 1 (42_alu.md R121). -/
def shrFlag (v : Byte) : Byte := v &&& 1#8

/-- 8XYE: the masked bit, left as 0x00 or 0x80 (42_alu.md R123). -/
def shlFlag (v : Byte) : Byte := v &&& 0x80#8

/-- The difference `D` of 8XY5 (42_alu.md R120): LATCHED takes the operands from before the instruction, REREAD those read after
its write of V[F]. -/
def subDifference (operands : SubOperands) (policy : SubUnderflow) (latchedX latchedY rereadX rereadY : Byte) : Byte :=
  match operands with
  | .reread => sub8 policy rereadX rereadY
  | .latched => latchedX - latchedY

/-- DXYN's write to V[F]: 1 on a collision, otherwise 0 under `DRAW_VF_CLEAR` and nothing without it (44_display.md R150). -/
def State.setDrawFlag (s : State) (clear collision : Bool) : State :=
  if collision then s.setReg flagReg 1#8
  else if clear then s.setReg flagReg 0#8
  else s

end Sys2Proof.Machine
end

