-- ==== Sys2Proof/Machine/Alu.lean ====
section
/-! DEFINITION. The register and ALU instructions (42_alu.md). Statements run in order and each read sees the instruction's
earlier writes (00_scope.md rule R15), so a field that names V[F] sees the flag write before it. No rule's effect goes beyond
what it lists (R110, D36). -/

namespace Sys2Proof.Machine

/-! ## Immediates -/

/-- `LD Vx, nn` (R111). -/
def execLdImm (x : Nibble) (nn : Byte) (s : State) : Result State := .next (s.setReg x nn)

/-- `ADD Vx, nn`: saturating, no flag (R112). -/
def execAddImm (x : Nibble) (nn : Byte) (s : State) : Result State := .next (s.setReg x (satadd8 (s.reg x) nn))

/-! ## Class 0x8 -/

/-- `LD Vx, Vy` (R113). -/
def execLdReg (x y : Nibble) (s : State) : Result State := .next (s.setReg x (s.reg y))

/-- `OR Vx, Vy` (R114). -/
def execOrReg (x y : Nibble) (s : State) : Result State := .next (s.setReg x (s.reg x ||| s.reg y))

/-- `AND Vx, Vy` (R115). -/
def execAndReg (x y : Nibble) (s : State) : Result State := .next (s.setReg x (s.reg x &&& s.reg y))

/-- `XOR Vx, Vy` (R116). -/
def execXorReg (x y : Nibble) (s : State) : Result State := .next (s.setReg x (s.reg x ^^^ s.reg y))

/-- `ADD Vx, Vy`: the sum of the old values, clamped; the flag is written before the result (R117, R118). -/
def execAddReg (x y : Nibble) (s : State) : Result State :=
  .next ((s.setReg flagReg (flagOf (addSaturates (s.reg x) (s.reg y)))).setReg x (satadd8 (s.reg x) (s.reg y)))

/-- `SUB Vx, Vy` for given open parameters (R118, R119, R120): the condition reads the old values, the flag is written before
the result. -/
def execSubWith (operands : SubOperands) (policy : SubUnderflow) (x y : Nibble) (s : State) : Result State :=
  if above (s.reg x) (s.reg y) then
    let flagged := s.setReg flagReg 1#8
    .next (flagged.setReg x
      (subDifference operands policy (s.reg x) (s.reg y) (flagged.reg x) (flagged.reg y)))
  else .next ((s.setReg flagReg 0#8).setReg x 0#8)

/-- `SUB Vx, Vy` (R119). -/
def execSub (x y : Nibble) (s : State) : Result State := execSubWith Config.subOperands Config.subUnderflow x y s

/-- `SHR Vx, Vy`: shifts V[y]; the flag is written last (R121). -/
def execShr (x y : Nibble) (s : State) : Result State :=
  .next ((s.setReg x (shr1 (s.reg y))).setReg flagReg (shrFlag (s.reg y)))

/-- `SUBN Vx, Vy` for a given open parameter: the comparison reads V[x] and V[y] after the write of V[x] (R122, D8). -/
def execSubnWith (policy : SubUnderflow) (x y : Nibble) (s : State) : Result State :=
  let written := s.setReg x (sub8 policy (s.reg y) (s.reg x))
  .next (written.setReg flagReg (flagOf (above (written.reg y) (written.reg x))))

/-- `SUBN Vx, Vy` (R122). -/
def execSubn (x y : Nibble) (s : State) : Result State := execSubnWith Config.subUnderflow x y s

/-- `SHL Vx, Vy`: shifts V[y]; the raw masked bit is written last (R123). -/
def execShl (x y : Nibble) (s : State) : Result State :=
  .next ((s.setReg x (shl1 (s.reg y))).setReg flagReg (shlFlag (s.reg y)))

/-! ## Random -/

/-- `RND Vx, nn` for a given draw (R125). -/
def execRndWith (drawn : Byte) (x : Nibble) (nn : Byte) (s : State) : Result State := .next (s.setReg x (drawn &&& nn))

/-- `RND Vx, nn`: each execution draws afresh (R125, 00_scope.md R12; log entry 7). -/
def execRnd (x : Nibble) (nn : Byte) (s : State) : Result State :=
  execRndWith (Config.randomByte s.free) x nn s.takeFree

end Sys2Proof.Machine
end

