-- ==== Sys2Proof/Machine/Control.lean ====
section
/-! DEFINITION. Jump and skips (41_control_flow.md rules R100 to R105). -/

namespace Sys2Proof.Machine

/-- `JP nnn`: `pc <- zext_16(nnn)`, unchecked (R101). -/
def execJp (nnn : Addr12) (s : State) : Result State := .next (s.setPc (zext16 nnn))

/-- `SE Vx, nn` (R102). -/
def execSeImm (x : Nibble) (nn : Byte) (s : State) : Result State := .next (s.skipIf (s.reg x == nn))

/-- `SNE Vx, nn` (R103). -/
def execSneImm (x : Nibble) (nn : Byte) (s : State) : Result State := .next (s.skipIf (s.reg x != nn))

/-- `SE Vx, Vy` (R104). -/
def execSeReg (x y : Nibble) (s : State) : Result State := .next (s.skipIf (s.reg x == s.reg y))

/-- `SNE Vx, Vy` (R105). -/
def execSneReg (x y : Nibble) (s : State) : Result State := .next (s.skipIf (s.reg x != s.reg y))

end Sys2Proof.Machine
end

