-- ==== Sys2Proof/Machine/Framebuffer.lean ====
section
/-! DEFINITION. The framebuffer double-buffer controller (44_display.md): selectors, clear, draw, swap, read current. Each
operation is one atomic transaction (rule R141): one function of the state. -/

namespace Sys2Proof.Machine

/-! ## Slots and pixels -/

/-- `1 - s` (00_scope.md R18). -/
def otherSlot : Slot → Slot
  | .zero => .one
  | .one => .zero

/-- `FB[k]`. -/
def State.slot (s : State) : Slot → Grid
  | .zero => s.fb0
  | .one => s.fb1

/-- `FB[k] <- g`. -/
def State.setSlot (s : State) (k : Slot) (g : Grid) : State :=
  match k with
  | .zero => { s with fb0 := g }
  | .one => { s with fb1 := g }

/-- The pixel at a stored row and a column. -/
def gridPixel (g : Grid) (r : Fin screenH) (c : Fin screenW) : Byte := g[r.val][c.val]

/-- Write the pixel at a stored row and a column. -/
def setGridPixel (g : Grid) (r : Fin screenH) (c : Fin screenW) (p : Byte) : Grid :=
  g.set r.val (g[r.val].set c.val p c.isLt) r.isLt

/-- `FB[k][r][c]` (00_scope.md R18). -/
def State.pixel (s : State) (k : Slot) (r : Fin screenH) (c : Fin screenW) : Byte := gridPixel (s.slot k) r c

/-! ## Selectors (R142) -/

/-- The selector of clear and draw. -/
inductive Selector where
  | slot (k : Nat)
  | current
  | inactive
  deriving DecidableEq, Repr

/-- The slot a selector names, against `cur` at that moment: a number other than 0 and 1 names none. -/
def resolve (cur : Slot) : Selector → Result Slot
  | .slot 0 => .next .zero
  | .slot 1 => .next .one
  | .slot (k + 2) => .refused (.noSuchSlot (k + 2))
  | .current => .next cur
  | .inactive => .next (otherSlot cur)

/-! ## Clear, swap, read current -/

/-- `clear(sel)`: the slot becomes all zero, `cur` is not changed (R143). -/
def clear (sel : Selector) (s : State) : Result State :=
  andThen (resolve s.cur sel) (fun k => .next (s.setSlot k blankGrid))

/-- `swap()`: `cur <- 1 - cur`, no pixel (R144). -/
def swap (s : State) : State := { s with cur := otherSlot s.cur }

/-- `read_current()`: a copy of the current slot in stored-row order (R145). -/
def currentGrid (s : State) : Grid := s.slot s.cur

/-! ## Draw (R147) -/

/-- A slot being drawn into and the collision bit. -/
structure Canvas where
  grid : Grid
  collision : Bool
  deriving DecidableEq, Repr

/-- XOR one set sprite bit into a pixel: a pixel that is on (not 0, D39) is turned off and collides, one that is off is turned
on (R147). -/
def plot (cv : Canvas) (r : Fin screenH) (c : Fin screenW) : Canvas :=
  if gridPixel cv.grid r c ≠ 0#8 then ⟨setGridPixel cv.grid r c pixelOff, true⟩
  else ⟨setGridPixel cv.grid r c pixelOn, cv.collision⟩

/-- Bit `7 - c` of a sprite row: the most significant bit is column 0. -/
def spriteBit (bits : Byte) (c : Nat) : Bool := bits.getLsbD (7 - c)

/-- Column `c` of one sprite row at a stored row: a column at or beyond 64 is skipped, not wrapped (R147). -/
def drawColumn (bits : Byte) (r : Fin screenH) (ox : Nat) (cv : Canvas) (c : Nat) : Canvas :=
  if spriteBit bits c then
    if h : ox + c < screenW then plot cv r ⟨ox + c, h⟩ else cv
  else cv

/-- The columns of a sprite row (`SPRITE_W`, 00_scope.md R9), left to right. -/
def spriteColumns : List Nat := [0, 1, 2, 3, 4, 5, 6, 7]

/-- One sprite row at a stored row. -/
def drawRow (bits : Byte) (r : Fin screenH) (ox : Nat) (cv : Canvas) : Canvas :=
  spriteColumns.foldl (drawColumn bits r ox) cv

/-- The sprite rows from number `r` on: row `r` is at stored row `base - r`, and is skipped if that underflows (R147). -/
def drawRows (base : Fin screenH) (ox : Nat) (r : Nat) (cv : Canvas) : List Byte → Canvas
  | [] => cv
  | bits :: rows =>
    drawRows base ox (r + 1)
      (if r ≤ base.val then drawRow bits ⟨base.val - r, Nat.lt_of_le_of_lt (Nat.sub_le _ _) base.isLt⟩ ox cv else cv) rows

/-- The column of an origin: `vx mod 64` (R146). -/
def originColumn (vx : Byte) : Nat := vx.toNat % screenW

/-- The stored row of an origin: `31 - (vy mod 32)` (R146). -/
def originRow (vy : Byte) : Fin screenH := ⟨31 - vy.toNat % screenH, by simp only [screenH]; omega⟩

/-- A sprite drawn into a grid at an origin, and whether a pixel was turned off (R147). -/
def drawGrid (g : Grid) (vx vy : Byte) (rows : List Byte) : Canvas :=
  drawRows (originRow vy) (originColumn vx) 0 ⟨g, false⟩ rows

/-- `draw(sel, vx, vy, rows)`: one transaction, answering the collision bit (R147). -/
def draw (sel : Selector) (vx vy : Byte) (rows : List Byte) (s : State) : Result (State × Bool) :=
  andThen (resolve s.cur sel) (fun k =>
    let cv := drawGrid (s.slot k) vx vy rows
    .next (s.setSlot k cv.grid, cv.collision))

end Sys2Proof.Machine
end

