-- ==== Sys2Proof/Machine/Ports.lean ====
section
/-! DEFINITION. The timer engine and the ports of the outside agents (60_exceptions.md rules R168 to R172,
70_reset_and_hazards.md R180, R184, 20_memory.md R57, 40_cycle.md R99). -/

namespace Sys2Proof.Machine

/-! ## Timers -/

/-- One counter's tick: 1 less while above 0 (R169). -/
def countDown (t : Byte) : Byte := if 0 < t.toNat then t - 1#8 else t

/-- `tick()`: both counters in one transaction (R169). -/
def tick (s : State) : State := { s with dt := countDown s.dt, st := countDown s.st }

/-- `write_timer(which, v)` (R171). -/
def writeTimer (which : Timer) (u : Byte) (s : State) : State :=
  match which with
  | .delay => { s with dt := u }
  | .sound => { s with st := u }

/-! ## One transaction on shared state -/

/-- A port that can also fall inside a CLS. A tick source that was asked to stop ticks no more (40_cycle.md R99, log
entry 15). -/
def performShared (s : State) : SharedOp → State
  | .tick => if s.tickStopped then s else tick s
  | .readTimers => s.emit (.timers s.dt s.st)
  | .writeTimer which u => writeTimer which u s
  | .readCurrent => s.emit (.frame (currentGrid s))
  | .swap => swap s
  | .readStatus => s.emit (.status s.status)

/-- A sequence of transactions, in its order. -/
def performAll (s : State) (ops : List SharedOp) : State := ops.foldl performShared s

/-! ## Reset, load, stop -/

/-- `reset()`: every element of the block's state at its reset value, whatever it was (70_reset_and_hazards.md R180, R181). It
erases the program image, leaves FAULTED, and a new launch begins (R182). The random draws and the event stream have nothing
to clear (R181), and the outside agents' transactions are no state of the block: the model's own fields stay (log entry 17). -/
def hostReset (s : State) : State :=
  { State.reset with free := s.free, agenda := s.agenda, between := s.between, outside := s.outside,
                     outputs := s.outputs }

/-- `load(image)`: the one load between reset and the first cycle, of at most 3584 bytes, writes the bytes at 0x200 and nothing
else; any other load is refused (20_memory.md R57, D44; log entries 14 and 18). -/
def load (image : List Byte) (s : State) : Result State :=
  if s.boot ≠ .awaitingLoad then .refused .loadOutOfTurn
  else if maxImage < image.length then .refused (.loadTooLong image.length)
  else .next ({ s with mem := s.mem.storeBytes progBase image, boot := .loaded }.emit .loadAccepted)

/-- `stop()` of the cycle driver or of the tick source: no further step or tick (40_cycle.md R99, log entry 15). -/
def stop (which : Stopped) (s : State) : State :=
  match which with
  | .driver => { s with driverStopped := true }
  | .ticks => { s with tickStopped := true }

end Sys2Proof.Machine
end

