-- ==== Sys2Proof/Machine/Display.lean ====
section
/-! DEFINITION. The display instructions (44_display.md rules R148 to R152). -/

namespace Sys2Proof.Machine

/-- The selector of a physical slot. -/
def slotSelector : Slot → Selector
  | .zero => .slot 0
  | .one => .slot 1

/-- The transactions that fall between the two clears of the coming CLS: its list, or what the outside agents do after the last
list (log entry 12). -/
def State.inside (s : State) : List SharedOp :=
  match s.between with
  | ops :: _ => ops
  | [] =>
    match s.outside with
    | .repeating _ ops => ops
    | .free => Config.inside s.free

/-- `CLS` for a given order and given transactions between: one slot, then those transactions of other agents, then the other
slot (R148, 70_reset_and_hazards.md R194). -/
def execClsWith (first : Slot) (inside : List SharedOp) (s : State) : Result State :=
  andThen (clear (slotSelector first) s) (fun s1 => clear (slotSelector (otherSlot first)) (performAll s1 inside))

/-- The slot a CLS clears first: a free value (R148 fixes no order; log entry 8). Where no transaction falls between the two
clears the order shows nowhere, and slot 0 is taken so that the state can be evaluated. -/
def clearedFirst (s : State) : Slot := if s.inside = [] then .zero else Config.clearedFirst s.free

/-- `CLS`: two clear transactions, in an order that is a free value (R148, D25; log entries 8 and 12). -/
def execCls (s : State) : Result State :=
  execClsWith (clearedFirst s) s.inside { s with between := s.between.tail, free := s.free + 1 }

/-- `DRW Vx, Vy, n` for a given open parameter: the origin is read first, the sprite's range is checked before any pixel is
written, the whole draw is one transaction on the inactive slot, V[F] is written last (R149 to R152). -/
def execDrwWith (clearFlag : Bool) (x y n : Nibble) (s : State) : Result State :=
  match s.readBytes s.dataBase (rowCount n) with
  | some rows => andThen (draw .inactive (s.reg x) (s.reg y) rows s) (fun d => .next (d.1.setDrawFlag clearFlag d.2))
  | none => .next (s.raise .spriteOob s.idx)

/-- `DRW Vx, Vy, n` (R149). -/
def execDrw (x y n : Nibble) (s : State) : Result State := execDrwWith Config.drawVfClear x y n s

end Sys2Proof.Machine
end

