-- ==== Sys2Proof/Machine/Index.lean ====
section
/-! DEFINITION. The index register and the memory load (43_index_memory.md rules R130 to R132). -/

namespace Sys2Proof.Machine

/-- `LD I, nnn`: the value is not checked (R130). -/
def execLdI (nnn : Addr12) (s : State) : Result State := .next (s.setIdx (zext16 nnn))

/-- `ADD I, Vx` for a given open parameter: V[F] is not written; a sum above 0xFFFF wraps or faults (R131, D20). -/
def execAddIWith (overflow : IdxOverflow) (x : Nibble) (s : State) : Result State :=
  let t := s.idx.toNat + (s.reg x).toNat
  if t ≤ 0xFFFF then .next (s.setIdx (BitVec.ofNat 16 t))
  else match overflow with
    | .wrap => .next (s.setIdx (BitVec.ofNat 16 t))
    | .fault => .next (s.raise .idxOverflow s.idx)

/-- `ADD I, Vx` (R131). -/
def execAddI (x : Nibble) (s : State) : Result State := execAddIWith Config.idxOverflow x s

/-- `LD Vx, [I]`: V[0] to V[x] from memory at idx; the whole range is checked first, idx is not changed (R132). -/
def execLdVxI (x : Nibble) (s : State) : Result State :=
  match s.readBytes s.dataBase (regCount x) with
  | some bytes => .next { s with v := loadRegsFrom s.v 0 bytes }
  | none => .next (s.raise .loadOob s.idx)

end Sys2Proof.Machine
end

