-- ==== Sys2Proof/Machine/System.lean ====
section
/-! DEFINITION. The two instructions that do nothing (40_cycle.md rules R93, R94). In every meaning pc already holds the
instruction's address plus 2 (10_state.md R46). -/

namespace Sys2Proof.Machine

/-- `NOP`, the zero word: no effect and no event (R93). -/
def execNop (s : State) : Result State := .next s

/-- `UNKNOWN`: a no-op that sends `UnknownOp(a, w)`, `a` the address the word was fetched from (R94). -/
def execUnknown (w : Half) (s : State) : Result State := .next (s.emit (.unknownOp s.fetchedAt w))

end Sys2Proof.Machine
end

