-- ==== Sys2Proof/Machine/Cycle.lean ====
section
/-! DEFINITION. The interpreter's cycle (40_cycle.md rules R90 to R97) and the placing of a word where the next step fetches. -/

namespace Sys2Proof.Machine

/-- The word at pc, big-endian, where both of its bytes are in memory (R91, 20_memory.md R53). -/
def State.fetchWord (s : State) : Option Half :=
  match s.readByte s.pc.toNat, s.readByte (s.pc.toNat + 1) with
  | some hi, some lo => some (joinWord hi lo)
  | _, _ => none

/-- Whether a requested cycle is taken: the status is RUNNING (R90, R97) and the driver was not asked to stop (R99). -/
def State.cycleEnabled (s : State) : Bool := s.status = .running && !s.driverStopped

/-- The state an instruction executes in: fetch has advanced pc, and the launch has begun (R91, R46,
70_reset_and_hazards.md R182). -/
def State.fetched (s : State) : State := { s with pc := s.pc + 2#16, boot := .started }

/-- A fetch beyond memory: pc keeps its value (R91). -/
def State.fetchFault (s : State) : State := { s with boot := .started }.raise .fetchOob s.pc

/-- One requested cycle: fetch, decode, execute (R90). A request while it is not enabled does nothing (R97,
70_reset_and_hazards.md R185; log entry 16). -/
def cycle (s : State) : Result State :=
  if s.cycleEnabled then
    match s.fetchWord with
    | some w => exec (decode w) s.fetched
    | none => .next s.fetchFault
  else .next s

/-- One request of an outside agent (70_reset_and_hazards.md R184). -/
def perform (r : Request) (s : State) : Result State :=
  match r with
  | .step => cycle s
  | .shared op => .next (performShared s op)
  | .reset => .next (hostReset s)
  | .load image => load image s
  | .stop which => .next (stop which s)

/-- The request that the coming step performs: the agenda's oldest, or what the outside agents do after its end (log
entry 11). -/
def State.nextRequest (s : State) : Request :=
  match s.agenda with
  | r :: _ => r
  | [] =>
    match s.outside with
    | .repeating requests _ => requests.headD .step
    | .free => Config.request s.free

/-- The state with that request taken: only `agenda` and, for a free request, `free` change. -/
def State.popped (s : State) : State :=
  match s.agenda with
  | _ :: rest => { s with agenda := rest }
  | [] =>
    match s.outside with
    | .repeating requests _ => { s with agenda := requests.tail }
    | .free => s.takeFree

/-- One transaction of the total order of 00_scope.md R27. -/
def transaction (s : State) : Result State := perform s.nextRequest s.popped

/-- Put a word where the very next step fetches it: the next request is a step, a cycle is enabled, and pc is at an address a
word can be fetched from (0x200 if it was not); log entry 20. -/
def placeWord (w : Half) (s : State) : State :=
  { s with
    pc := if s.pc.toNat + 1 < memSize then s.pc else 0x0200#16
    agenda := .step :: s.agenda
    status := .running
    driverStopped := false }.storeWord (if s.pc.toNat + 1 < memSize then s.pc.toNat else progBase) w

end Sys2Proof.Machine
end

