-- ==== Sys2Proof/Machine/Step.lean ====
section
/-! DEFINITION. One step of the machine, and the host's placing of a word for the next step. -/

namespace Sys2Proof.Machine

/-- One step: one transaction (Machine/Cycle.lean). -/
def step (s : State) : Host.Outcome State Fault Refusal := transaction s

/-- `s` with the instruction whose bits are `w`, numbered as the opcode table numbers them, where the next step fetches. -/
def State.withFetchWord (s : State) (nbits w : Nat) : State := placeWord (tableWord nbits w) s

end Sys2Proof.Machine
end

