-- ==== Sys2Proof/Safety.lean ====
section
/-! DEFINITION. What claims call a good end, a bad end and a good state: the ends of a run (40_cycle.md rule R98), the
invariant of the machine's data, and what a fault record says (60_exceptions.md R162, R163). -/

namespace Sys2Proof.Machine

/-- The coming step is a cycle: the next request is the driver's step() (70_reset_and_hazards.md R184). -/
def State.CycleDue (s : State) : Prop := s.nextRequest = .step

/-- Whether a transaction sends an output: the reads do (70_reset_and_hazards.md R184). -/
def SharedOp.answers : SharedOp → Bool
  | .readTimers => true
  | .readCurrent => true
  | .readStatus => true
  | .tick => false
  | .writeTimer _ _ => false
  | .swap => false

/-- The slot that is current after a sequence of transactions: every swap flips it (44_display.md R144). -/
def currentAfter (k : Slot) (ops : List SharedOp) : Slot := if ops.count .swap % 2 = 0 then k else otherSlot k

/-- A run ends well: RUNNING, and the word at pc is a jump to itself (R98, D32). -/
def State.EndsWell (s : State) : Prop :=
  s.status = .running ∧ s.pc.toNat ≤ 0x0FFE ∧ s.fetchWord = some (wordNnn 0x1#4 (s.pc.setWidth 12))

/-- A run ends badly: the status is FAULTED (R98). -/
def State.EndsBadly (s : State) : Prop := ∃ cause addr, s.status = .faulted cause addr

/-- A pixel is 0 or 255 (10_state.md R38, 44_display.md R156). -/
def legalPixel (p : Byte) : Prop := p = pixelOff ∨ p = pixelOn

/-- Whether a sprite covers the pixel at a stored row and a column: sprite row `k` lies on device row `(vy mod 32) + k`, device
row `d` is stored row `31 - d`, and bit `7 - j` of a sprite row lies on column `(vx mod 64) + j` (44_display.md R146, R147).
Nothing wraps a second time. -/
def spriteCovers (vx vy : Byte) (rows : List Byte) (r : Fin screenH) (c : Fin screenW) : Prop :=
  ∃ k j : Nat, ∃ bits : Byte, rows[k]? = some bits ∧ j < 8 ∧ bits.getLsbD (7 - j) = true ∧
    31 - r.val = vy.toNat % 32 + k ∧ c.val = vx.toNat % 64 + j

/-- A pixel after a set sprite bit is XORed into it (R147). -/
def togglePixel (p : Byte) : Byte := if p ≠ 0#8 then pixelOff else pixelOn

/-- The invariant of the machine's data. -/
structure State.Inv (s : State) : Prop where
  /-- memory is in its canonical form, every listed address below `MEM_SIZE` -/
  memory : s.mem.wf = true
  /-- every pixel of both slots is 0 or 255 (R156) -/
  pixels : ∀ k r c, legalPixel (s.pixel k r c)
  /-- the pc never passes 0x1002 (10_state.md R34) -/
  pcRange : s.pc.toNat ≤ 0x1002
  /-- the listed stack entries exist (10_state.md R35) -/
  stackForm : stackWfFrom Config.stackDepth 0 s.stack = true
  /-- `sp` is in 0..STACK_DEPTH (10_state.md R35) -/
  spRange : s.sp ≤ Config.stackDepth

/-- What a FAULTED status records (60_exceptions.md R162, R163): the address of the failed access, which the state still shows,
and the range in which that access can have failed. -/
def State.FaultRecord (s : State) : Prop :=
  match s.status with
  | .running => True
  | .faulted .fetchOob a => a = s.pc ∧ 0x0FFF ≤ a.toNat
  | .faulted .loadOob a => a = s.idx ∧ 0x0FF1 ≤ a.toNat
  | .faulted .spriteOob a => a = s.idx ∧ 0x0FF2 ≤ a.toNat
  | .faulted .idxOverflow a => a = s.idx ∧ 0xFF01 ≤ a.toNat ∧ Config.idxOverflow = .fault

end Sys2Proof.Machine
end

