-- ==== Sys2Proof/WellFormed.lean ====
section
/-! DEFINITION. Which terms of `Instr` are instructions of the hardware. Every register field is 4 bits and there are 16
registers, so no register operand can be out of range (30_encoding.md rule R72); the one check is that `unknown` carries a
word of the unknown-opcode space of R81. -/

namespace Sys2Proof

/-- The unknown-opcode space, its four lines as 30_encoding.md R81 lists them (written on the word's number, apart from the
decoder's fields). -/
def inUnknownSpace (w : Half) : Bool :=
  let op := w.toNat / 0x1000
  let nn := w.toNat % 0x100
  let n := w.toNat % 0x10
  (op == 0x2 || op == 0xB || op == 0xE)
    || (op == 0x0 && w != 0x0000 && nn != 0xE0)
    || (op == 0x8 && (n == 0x8 || n == 0x9 || n == 0xA || n == 0xB || n == 0xC || n == 0xD || n == 0xF))
    || (op == 0xF && nn != 0x1E && nn != 0x65)

/-- Whether the hardware has this instruction. -/
def Instr.wellFormed : Instr → Bool
  | .nop => true
  | .cls => true
  | .jp _ => true
  | .seImm _ _ => true
  | .sneImm _ _ => true
  | .seReg _ _ => true
  | .ldImm _ _ => true
  | .addImm _ _ => true
  | .ldReg _ _ => true
  | .orReg _ _ => true
  | .andReg _ _ => true
  | .xorReg _ _ => true
  | .addReg _ _ => true
  | .sub _ _ => true
  | .shr _ _ => true
  | .subn _ _ => true
  | .shl _ _ => true
  | .sneReg _ _ => true
  | .ldI _ => true
  | .rnd _ _ => true
  | .drw _ _ _ => true
  | .addI _ => true
  | .ldVxI _ => true
  | .unknown w => inUnknownSpace w

end Sys2Proof
end

