-- ==== Sys2Proof/Certificates/Slice0/Obligations.lean ====
section
/-! DEFINITION. The statements for the provers. In every statement about `exec`, pc already holds the instruction's address plus
2 (10_state.md rule R46). "(D<n>)" names the decision of 92_eei_decisions.md, the spec's own choice, that a clause rests on. A
conclusion `t = { s with v := t.v }` is a frame: every other field of the state, so every byte of memory, every pixel, the
status and the special registers, is as it was (NoInstructionWritesMemory says so of memory byte by byte). `s.nextRequest` is the
request that the coming step performs, listed in the agenda or after its end; `s.popped` is the state with it taken, which differs
in `agenda` and `free` alone (NoCycleWhileFaultedOrStopped states that); `s.CycleDue` says that it is the driver's step(). -/

open Sys2Proof Sys2Proof.Machine

/-! ## Encoding -/

/-- Words written out from 30_encoding.md R73 decode to the instruction they stand for, one or more of each family. -/
def Obligations.SpecWordsDecode : Prop :=
  decode 0x0000#16 = .nop ∧ decode 0x0FE0#16 = .cls ∧ decode 0x120C#16 = .jp 0x20C#12 ∧
  decode 0x3124#16 = .seImm 1#4 0x24#8 ∧ decode 0x5127#16 = .seReg 1#4 2#4 ∧ decode 0x912F#16 = .sneReg 1#4 2#4 ∧
  decode 0x6A24#16 = .ldImm 0xA#4 0x24#8 ∧ decode 0x8F15#16 = .sub 0xF#4 1#4 ∧ decode 0x832E#16 = .shl 3#4 2#4 ∧
  decode 0xA20C#16 = .ldI 0x20C#12 ∧ decode 0xC00F#16 = .rnd 0#4 0x0F#8 ∧ decode 0xD125#16 = .drw 1#4 2#4 5#4 ∧
  decode 0xF11E#16 = .addI 1#4 ∧ decode 0xF265#16 = .ldVxI 2#4 ∧
  decode 0x00EE#16 = .unknown 0x00EE#16 ∧ decode 0x2208#16 = .unknown 0x2208#16 ∧ decode 0x8018#16 = .unknown 0x8018#16

/-- Decoding an encoded well-formed instruction gives it back, with every operand at every value, from a word and from bytes
(the encoder is the model's, after R85). -/
def Obligations.DecodeEncodeRoundTrip : Prop :=
  ∀ (i : Instr) (rest : List Byte), i.wellFormed = true →
    decode (encode i) = i ∧ decodeBytes (encodeBytes i ++ rest) = .ok (i, rest)

/-- Every word decodes to a well-formed instruction, and encoding that gives the word with its don't-care bits at 0 (R74, R80,
R84; D21). -/
def Obligations.EncodeDecodeCanonical : Prop :=
  ∀ w : Half, (decode w).wellFormed = true ∧ encode (decode w) = canonicalWord w

/-- A word is the unknown-opcode no-op exactly when it is in the space that R81 lists. -/
def Obligations.UnknownExactlyOnUnknownSpace : Prop :=
  ∀ w : Half, (decode w = .unknown w ↔ inUnknownSpace w = true) ∧ ∀ u, decode w = .unknown u → u = w

/-- The decoder gives every word the mnemonic of the opcode table's winning row: the matching row of smallest priority. -/
def Obligations.DecodeAgreesWithOpcodeTable : Prop :=
  ∀ w : Half, firstMatch w opcodeTable = some (decode w).mnemonic

/-! ## The cycle -/

/-- With a cycle due, RUNNING and the driver not stopped, a step is `exec` of the instruction whose big-endian word stands at
pc, in the state with pc advanced by 2 and the launch begun (R90, R91, 20_memory.md R53). -/
def Obligations.StepRunsDecodedInstruction : Prop :=
  ∀ (s : State) (hi lo : Byte) (w : Half) (i : Instr),
    s.CycleDue → s.status = .running → s.driverStopped = false →
    s.readByte s.pc.toNat = some hi → s.readByte (s.pc.toNat + 1) = some lo →
    w.toNat = 256 * hi.toNat + lo.toNat → decode w = i →
    step s = exec i { s.popped with pc := s.pc + 2#16, boot := .started }

/-- A fetch whose second byte is beyond memory enters FAULTED with FETCH_OOB and the pc, and changes nothing else of the block
(R91, R162; D23, D24; `boot` is the model's own, log entry 14). -/
def Obligations.FetchBeyondMemoryFaults : Prop :=
  ∀ s : State, s.CycleDue → s.status = .running → s.driverStopped = false → 0x0FFF ≤ s.pc.toNat →
    step s = .next { s.popped with status := .faulted .fetchOob s.pc, boot := .started }

/-- A requested cycle does nothing while FAULTED, and nothing after the driver was asked to stop, but for the request itself: taking
any request changes the model's own `agenda` and `free` alone (R97, R99, 70_reset_and_hazards.md R185; D24, D47; log entries 11, 15,
16). -/
def Obligations.NoCycleWhileFaultedOrStopped : Prop :=
  (∀ s : State, s.popped = { s with agenda := s.popped.agenda, free := s.popped.free }) ∧
  ∀ s : State, s.CycleDue → (s.EndsBadly ∨ s.driverStopped = true) → step s = .next s.popped

/-- Every instruction answers a next state in every state, and changes the status only where R162 says a fault is raised (R96,
R97, R162; D24). -/
def Obligations.OnlyBoundsChecksFault : Prop :=
  ∀ (i : Instr) (s : State), ∃ t, exec i s = .next t ∧
    (t.status = s.status ∨
      (∃ x, i = .ldVxI x ∧ 0x1000 ≤ s.idx.toNat + x.toNat ∧ t.status = .faulted .loadOob s.idx) ∨
      (∃ x y n, i = .drw x y n ∧ 0 < n.toNat ∧ 0x1000 < s.idx.toNat + n.toNat ∧ t.status = .faulted .spriteOob s.idx) ∨
      (∃ x, i = .addI x ∧ Config.idxOverflow = .fault ∧ 0xFFFF < s.idx.toNat + (s.reg x).toNat ∧
        t.status = .faulted .idxOverflow s.idx))

/-- A fault an instruction raises is precise: nothing but the status is written, so pc is the instruction's address plus 2, and
the address recorded is idx (60_exceptions.md R163, R162; D24). -/
def Obligations.FaultsArePrecise : Prop :=
  ∀ (i : Instr) (s t : State) (cause : Cause) (addr : Half), exec i s = .next t → s.status = .running →
    t.status = .faulted cause addr → t = { s with status := .faulted cause s.idx } ∧ addr = s.idx

/-- NOP does nothing: the cycle's advance of pc is the only effect on the block's registers, and no event is sent (R93; the launch
that a cycle begins, `boot`, is the model's own, log entry 14). -/
def Obligations.NopOnlyAdvancesPc : Prop :=
  (∀ s : State, exec .nop s = .next s) ∧
  ∀ s : State, s.CycleDue → s.status = .running → s.driverStopped = false →
    s.readByte s.pc.toNat = some 0#8 → s.readByte (s.pc.toNat + 1) = some 0#8 →
    step s = .next { s.popped with pc := s.pc + 2#16, boot := .started }

/-- An unknown word is a no-op that sends UnknownOp with its address and the word; nothing else of the block changes (R94, R82; D31).
The model's own: the list the event goes to (log entry 13), the launch that a cycle begins, `boot` (log entry 14), and the same
meaning of an ill-formed `unknown` (log entry 22). -/
def Obligations.UnknownIsLoggedNoOp : Prop :=
  (∀ (w : Half) (s : State), exec (.unknown w) s =
    .next { s with outputs := .unknownOp (s.pc - 2#16) w :: s.outputs }) ∧
  ∀ (s : State) (hi lo : Byte) (w : Half), s.CycleDue → s.status = .running → s.driverStopped = false →
    s.readByte s.pc.toNat = some hi → s.readByte (s.pc.toNat + 1) = some lo →
    w.toNat = 256 * hi.toNat + lo.toNat → inUnknownSpace w = true →
    step s = .next { s.popped with pc := s.pc + 2#16, boot := .started, outputs := .unknownOp s.pc w :: s.outputs }

/-! ## Control transfer -/

/-- JP writes the zero-extended target to pc, whatever it is; nothing else, no flag, no exception; a target of 0xFFF makes the next
fetch fault (R101). -/
def Obligations.JumpSetsPc : Prop :=
  ∀ (nnn : Addr12) (s : State), decode (wordNnn 0x1#4 nnn) = .jp nnn ∧
    ∃ t, exec (.jp nnn) s = .next t ∧ t.pc.toNat = nnn.toNat ∧ t = { s with pc := t.pc } ∧
      (nnn = 0xFFF#12 → s.CycleDue → s.status = .running → s.driverStopped = false →
        ∃ u, step t = .next u ∧ u.status = .faulted .fetchOob 0x0FFF#16)

/-- SE and SNE with an immediate skip exactly when V[x] equals, or differs from, nn; no flag, no exception (R102, R103). -/
def Obligations.SkipsOnImmediate : Prop :=
  ∀ (x : Nibble) (nn : Byte) (s : State),
    decode (wordXNn 0x3#4 x nn) = .seImm x nn ∧ decode (wordXNn 0x4#4 x nn) = .sneImm x nn ∧
    (∃ t, exec (.seImm x nn) s = .next t ∧ t.pc = (if s.reg x = nn then s.pc + 2#16 else s.pc) ∧
      t.reg 0xF#4 = s.reg 0xF#4 ∧ t.status = s.status) ∧
    (∃ t, exec (.sneImm x nn) s = .next t ∧ t.pc = (if s.reg x = nn then s.pc else s.pc + 2#16) ∧
      t.reg 0xF#4 = s.reg 0xF#4 ∧ t.status = s.status)

/-- SE and SNE on registers skip exactly when V[x] equals, or differs from, V[y], whatever the low nibble of the word (R104,
R105; the nibble: D21). -/
def Obligations.SkipsOnRegisters : Prop :=
  ∀ (x y n : Nibble) (s : State),
    decode (wordXYN 0x5#4 x y n) = .seReg x y ∧ decode (wordXYN 0x9#4 x y n) = .sneReg x y ∧
    (∃ t, exec (.seReg x y) s = .next t ∧ t.pc = (if s.reg x = s.reg y then s.pc + 2#16 else s.pc) ∧
      t.reg 0xF#4 = s.reg 0xF#4 ∧ t.status = s.status) ∧
    (∃ t, exec (.sneReg x y) s = .next t ∧ t.pc = (if s.reg x = s.reg y then s.pc else s.pc + 2#16) ∧
      t.reg 0xF#4 = s.reg 0xF#4 ∧ t.status = s.status)

/-- Jump and skips change nothing but pc, and LD I nothing but idx (access matrix of 10_state.md section 6; D36). -/
def Obligations.JumpSkipAndIndexFrame : Prop :=
  ∀ (i : Instr) (s t : State), exec i s = .next t →
    (((∃ nnn, i = .jp nnn) ∨ (∃ x nn, i = .seImm x nn ∨ i = .sneImm x nn) ∨ (∃ x y, i = .seReg x y ∨ i = .sneReg x y)) →
      t = { s with pc := t.pc } ∧ ∀ a, t.readByte a = s.readByte a) ∧
    ((∃ nnn, i = .ldI nnn) → t = { s with idx := t.idx } ∧ ∀ a, t.readByte a = s.readByte a)

/-- After fetch only JP and a taken skip change pc: JP to nnn, a taken skip by 2; every other instruction leaves it (R95). -/
def Obligations.PcChangesOnlyByJumpAndSkip : Prop :=
  ∀ (i : Instr) (s t : State), exec i s = .next t →
    match i with
    | .jp nnn => t.pc.toNat = nnn.toNat
    | .seImm x nn => t.pc = if s.reg x = nn then s.pc + 2#16 else s.pc
    | .sneImm x nn => t.pc = if s.reg x = nn then s.pc else s.pc + 2#16
    | .seReg x y => t.pc = if s.reg x = s.reg y then s.pc + 2#16 else s.pc
    | .sneReg x y => t.pc = if s.reg x = s.reg y then s.pc else s.pc + 2#16
    | _ => t.pc = s.pc

/-- A jump to its own address repeats and changes nothing of the block: the well-ended state of R98 (D32; R101's corner case;
`boot` is the model's own, log entry 14). -/
def Obligations.SelfJumpRepeats : Prop :=
  ∀ s : State, s.EndsWell → s.CycleDue → s.driverStopped = false →
    step s = .next { s.popped with boot := .started }

/-! ## Registers and ALU -/

/-- LD Vx, nn and LD Vx, Vy: V[x] becomes nn, or V[y]; V[F] changes only as the destination; no exception (R111, R113). -/
def Obligations.LoadImmediateAndMove : Prop :=
  ∀ (x y : Nibble) (nn : Byte) (s : State),
    decode (wordXNn 0x6#4 x nn) = .ldImm x nn ∧ decode (wordXYN 0x8#4 x y 0x0#4) = .ldReg x y ∧
    (∃ t, exec (.ldImm x nn) s = .next t ∧ t.reg x = nn ∧ (x ≠ 0xF#4 → t.reg 0xF#4 = s.reg 0xF#4) ∧ t.status = s.status) ∧
    (∃ t, exec (.ldReg x y) s = .next t ∧ t.reg x = s.reg y ∧ (x ≠ 0xF#4 → t.reg 0xF#4 = s.reg 0xF#4) ∧
      t.status = s.status)

/-- ADD Vx, nn clamps the sum at 255; V[F] changes only as the destination; no exception (R112). -/
def Obligations.AddImmediateSaturates : Prop :=
  ∀ (x : Nibble) (nn : Byte) (s : State), decode (wordXNn 0x7#4 x nn) = .addImm x nn ∧
    ∃ t, exec (.addImm x nn) s = .next t ∧ (t.reg x).toNat = min ((s.reg x).toNat + nn.toNat) 255 ∧
      (x ≠ 0xF#4 → t.reg 0xF#4 = s.reg 0xF#4) ∧ t.status = s.status

/-- OR, AND and XOR bit by bit; V[F] changes only as the destination; no exception (R114, R115, R116). -/
def Obligations.LogicBitwise : Prop :=
  ∀ (x y : Nibble) (s : State),
    decode (wordXYN 0x8#4 x y 0x1#4) = .orReg x y ∧ decode (wordXYN 0x8#4 x y 0x2#4) = .andReg x y ∧
    decode (wordXYN 0x8#4 x y 0x3#4) = .xorReg x y ∧
    (∃ t, exec (.orReg x y) s = .next t ∧ (∀ k < 8, (t.reg x).getLsbD k = ((s.reg x).getLsbD k || (s.reg y).getLsbD k)) ∧
      (x ≠ 0xF#4 → t.reg 0xF#4 = s.reg 0xF#4) ∧ t.status = s.status) ∧
    (∃ t, exec (.andReg x y) s = .next t ∧ (∀ k < 8, (t.reg x).getLsbD k = ((s.reg x).getLsbD k && (s.reg y).getLsbD k)) ∧
      (x ≠ 0xF#4 → t.reg 0xF#4 = s.reg 0xF#4) ∧ t.status = s.status) ∧
    (∃ t, exec (.xorReg x y) s = .next t ∧
      (∀ k < 8, (t.reg x).getLsbD k = Bool.xor ((s.reg x).getLsbD k) ((s.reg y).getLsbD k)) ∧
      (x ≠ 0xF#4 → t.reg 0xF#4 = s.reg 0xF#4) ∧ t.status = s.status)

/-- ADD Vx, Vy: the clamped sum of the old values, V[F] 1 on saturation and 0 otherwise; with x = F the sum is what stays (R117,
R118; the order of the two writes: D12). -/
def Obligations.AddRegistersSaturateWithFlag : Prop :=
  ∀ (x y : Nibble) (s : State), decode (wordXYN 0x8#4 x y 0x4#4) = .addReg x y ∧
    ∃ t, exec (.addReg x y) s = .next t ∧
      (t.reg x).toNat = min ((s.reg x).toNat + (s.reg y).toNat) 255 ∧
      (x ≠ 0xF#4 → t.reg 0xF#4 = if 255 < (s.reg x).toNat + (s.reg y).toNat then 1#8 else 0#8)

/-- SUB Vx, Vy away from V[F]: the difference with a floor at 0, V[F] 1 exactly when V[x] was above V[y] (R119; D12 and D11 do
not matter here). -/
def Obligations.SubtractFloorsAtZero : Prop :=
  ∀ (x y : Nibble) (s : State), decode (wordXYN 0x8#4 x y 0x5#4) = .sub x y ∧
    (x ≠ 0xF#4 → y ≠ 0xF#4 → ∃ t, exec (.sub x y) s = .next t ∧
      (t.reg x).toNat = (s.reg x).toNat - (s.reg y).toNat ∧
      t.reg 0xF#4 = if (s.reg y).toNat < (s.reg x).toNat then 1#8 else 0#8)

/-- SUB Vx, Vy where x or y is F: with V[x] not above V[y] the result is 0; otherwise the difference of the operands that
P_8XY5_OPERANDS names, with V[F] reading as 1 under REREAD (R118, R119, R120, 00_scope.md R20; D10, D11, D12). -/
def Obligations.SubtractOnTheFlagRegister : Prop :=
  ∀ (x y : Nibble) (s : State), x = 0xF#4 ∨ y = 0xF#4 → ∃ t, exec (.sub x y) s = .next t ∧
    ((s.reg x).toNat ≤ (s.reg y).toNat → t.reg x = 0#8 ∧ t.reg 0xF#4 = 0#8) ∧
    ((s.reg y).toNat < (s.reg x).toNat →
      (x ≠ 0xF#4 → t.reg 0xF#4 = 1#8) ∧
      match Config.subOperands with
      | .latched => (t.reg x).toNat = (s.reg x).toNat - (s.reg y).toNat
      | .reread =>
        (x ≠ 0xF#4 → (t.reg x).toNat = (s.reg x).toNat - 1) ∧
        (x = 0xF#4 → ((s.reg y).toNat = 0 → (t.reg x).toNat = 1) ∧ ((s.reg y).toNat = 1 → (t.reg x).toNat = 0) ∧
          (2 ≤ (s.reg y).toNat → match Config.subUnderflow with
            | .wrap => (t.reg x).toNat = 257 - (s.reg y).toNat
            | .saturate => (t.reg x).toNat = 0)))

/-- SHR Vx, Vy: half of V[y] goes to V[x], and the bit shifted out to V[F], which is written last (R121). -/
def Obligations.ShiftRightTakesVy : Prop :=
  ∀ (x y : Nibble) (s : State), decode (wordXYN 0x8#4 x y 0x6#4) = .shr x y ∧
    ∃ t, exec (.shr x y) s = .next t ∧ (x ≠ 0xF#4 → (t.reg x).toNat = (s.reg y).toNat / 2) ∧
      (t.reg 0xF#4).toNat = (s.reg y).toNat % 2 ∧ t.status = s.status

/-- SUBN Vx, Vy: V[x] becomes the difference V[y] - V[x], by SUB_UNDERFLOW where it underflows, and V[F] compares V[y] against
the new V[x] (R122, 00_scope.md R20; D8, D10). -/
def Obligations.SubtractReverseComparesNewValue : Prop :=
  ∀ (x y : Nibble) (s : State), decode (wordXYN 0x8#4 x y 0x7#4) = .subn x y ∧
    ∃ t, exec (.subn x y) s = .next t ∧ ∃ d : Byte,
      ((s.reg x).toNat ≤ (s.reg y).toNat → d.toNat = (s.reg y).toNat - (s.reg x).toNat) ∧
      ((s.reg y).toNat < (s.reg x).toNat → match Config.subUnderflow with
        | .wrap => d.toNat = (s.reg y).toNat + 256 - (s.reg x).toNat
        | .saturate => d.toNat = 0) ∧
      (x ≠ 0xF#4 → t.reg x = d) ∧
      (x ≠ y → t.reg 0xF#4 = if d.toNat < (s.reg y).toNat then 1#8 else 0#8) ∧
      (x = y → t.reg 0xF#4 = 0#8)

/-- SHL Vx, Vy: twice V[y] modulo 256 goes to V[x], and the masked top bit, 0x00 or 0x80, to V[F], which is written last (R123;
D9). -/
def Obligations.ShiftLeftLeavesRawFlag : Prop :=
  ∀ (x y : Nibble) (s : State), decode (wordXYN 0x8#4 x y 0xE#4) = .shl x y ∧
    ∃ t, exec (.shl x y) s = .next t ∧ (x ≠ 0xF#4 → (t.reg x).toNat = 2 * (s.reg y).toNat % 256) ∧
      t.reg 0xF#4 = if 128 ≤ (s.reg y).toNat then 0x80#8 else 0x00#8

/-- RND Vx, nn: some draw, masked bit by bit; each execution moves on to a fresh draw, and nothing else changes (R125, 00_scope.md
R12; D34; the draw's form is the model's, log entry 7). It says nothing of the draw's value. -/
def Obligations.RandomIsMaskedDraw : Prop :=
  ∀ (x : Nibble) (nn : Byte) (s : State), decode (wordXNn 0xC#4 x nn) = .rnd x nn ∧
    ∃ t drawn, exec (.rnd x nn) s = .next t ∧
      (∀ k < 8, (t.reg x).getLsbD k = (drawn.getLsbD k && nn.getLsbD k)) ∧
      drawn = Config.randomByte s.free ∧ t.free = s.free + 1 ∧
      t = { s with v := t.v, free := t.free } ∧ ∀ r, r ≠ x → t.reg r = s.reg r

/-- The frame of the register instructions: LD, ADD nn, OR, AND and XOR change V[x] alone; ADD, SUB, SHR, SUBN and SHL change V[x]
and V[F] alone (R110, 10_state.md section 6; D36). -/
def Obligations.RegisterInstructionFrame : Prop :=
  ∀ (i : Instr) (x : Nibble) (s t : State), exec i s = .next t →
    ((∃ nn, i = .ldImm x nn ∨ i = .addImm x nn) ∨ (∃ y, i = .ldReg x y ∨ i = .orReg x y ∨ i = .andReg x y ∨ i = .xorReg x y) →
      t = { s with v := t.v } ∧ (∀ r, r ≠ x → t.reg r = s.reg r) ∧ ∀ a, t.readByte a = s.readByte a) ∧
    ((∃ y, i = .addReg x y ∨ i = .sub x y ∨ i = .shr x y ∨ i = .subn x y ∨ i = .shl x y) →
      t = { s with v := t.v } ∧ (∀ r, r ≠ x → r ≠ 0xF#4 → t.reg r = s.reg r) ∧ ∀ a, t.readByte a = s.readByte a)

/-- `sub8` is the difference where it does not underflow, and under underflow the difference modulo 256 or 0 as SUB_UNDERFLOW
says (00_scope.md R20; D10): for both values of the parameter. -/
def Obligations.BareSubtractionUnderflow : Prop :=
  ∀ a b : Byte,
    (b.toNat ≤ a.toNat → ∀ p, (sub8 p a b).toNat = a.toNat - b.toNat) ∧
    (a.toNat < b.toNat → (sub8 .wrap a b).toNat = a.toNat + 256 - b.toNat ∧ sub8 .saturate a b = 0#8)

/-! ## Index register and memory -/

/-- LD I, nnn: idx becomes the zero-extended nnn, unchecked; no flag, no exception (R130). -/
def Obligations.LoadIndex : Prop :=
  ∀ (nnn : Addr12) (s : State), decode (wordNnn 0xA#4 nnn) = .ldI nnn ∧
    ∃ t, exec (.ldI nnn) s = .next t ∧ t.idx.toNat = nnn.toNat ∧ t.reg 0xF#4 = s.reg 0xF#4 ∧ t.status = s.status

/-- ADD I, Vx: the 16-bit sum where it fits; above 0xFFFF it wraps or raises IDX_OVERFLOW with idx kept, as the parameter says
(R131; D20). V[F] and everything else is unchanged (D36). -/
def Obligations.AddToIndex : Prop :=
  ∀ (x : Nibble) (s : State), decode (wordXNn 0xF#4 x 0x1E#8) = .addI x ∧
    ((s.idx.toNat + (s.reg x).toNat ≤ 0xFFFF → ∃ t, exec (.addI x) s = .next t ∧
        t.idx.toNat = s.idx.toNat + (s.reg x).toNat ∧ t = { s with idx := t.idx }) ∧
      (0xFFFF < s.idx.toNat + (s.reg x).toNat → match Config.idxOverflow with
        | .wrap => ∃ t, exec (.addI x) s = .next t ∧ t.idx.toNat = s.idx.toNat + (s.reg x).toNat - 0x10000 ∧
            t = { s with idx := t.idx }
        | .fault => exec (.addI x) s = .next { s with status := .faulted .idxOverflow s.idx }))

/-- LD Vx, [I]: in range V[0] to V[x] are the bytes at idx to idx + x, and the registers above x, idx and everything else are
unchanged; out of range it raises LOAD_OOB with idx and writes no register (R132, R162; D18, D19, D24). -/
def Obligations.LoadRegistersFromMemory : Prop :=
  ∀ (x : Nibble) (s : State), decode (wordXNn 0xF#4 x 0x65#8) = .ldVxI x ∧
    (s.idx.toNat + x.toNat < 0x1000 → ∃ t, exec (.ldVxI x) s = .next t ∧ t = { s with v := t.v } ∧
      ∀ r : Nibble, (r.toNat ≤ x.toNat → s.readByte (s.idx.toNat + r.toNat) = some (t.reg r)) ∧
        (x.toNat < r.toNat → t.reg r = s.reg r)) ∧
    (0x1000 ≤ s.idx.toNat + x.toNat → exec (.ldVxI x) s = .next { s with status := .faulted .loadOob s.idx })

/-- No instruction writes memory: every address reads as before, and the words of FX55 and FX33 are unknown no-ops; no step but a
load or a reset changes memory (20_memory.md R54). -/
def Obligations.NoInstructionWritesMemory : Prop :=
  (∀ (i : Instr) (s t : State), exec i s = .next t → t.mem = s.mem ∧ ∀ a, t.readByte a = s.readByte a) ∧
  (∀ x, decode (wordXNn 0xF#4 x 0x55#8) = .unknown (wordXNn 0xF#4 x 0x55#8) ∧
    decode (wordXNn 0xF#4 x 0x33#8) = .unknown (wordXNn 0xF#4 x 0x33#8)) ∧
  ∀ s t : State, step s = .next t → (∀ image, s.nextRequest ≠ .load image) → s.nextRequest ≠ .reset → t.mem = s.mem

/-- No instruction touches the call stack, `sp`, the launch, the stop requests or what the outside agents do next; and unless transactions of other
agents fall inside it, none touches DT, ST or `cur` (10_state.md R45, 60_exceptions.md R172, 44_display.md R144). -/
def Obligations.InstructionsLeaveOtherStateAlone : Prop :=
  ∀ (i : Instr) (s t : State), exec i s = .next t →
    t.stack = s.stack ∧ t.sp = s.sp ∧ t.boot = s.boot ∧ t.driverStopped = s.driverStopped ∧
    t.tickStopped = s.tickStopped ∧ t.agenda = s.agenda ∧ t.outside = s.outside ∧
    ((i ≠ .cls ∨ s.inside = []) → t.dt = s.dt ∧ t.st = s.st ∧ t.cur = s.cur)

/-! ## Display -/

/-- CLS: both slots become blank, whatever transactions of other agents fall between its two clears and whichever clear comes
first; with none between, nothing else changes, and never the registers, idx, pc, memory or the status (R148,
70_reset_and_hazards.md R194; D25; the count of free values and the lists of what falls between are the model's own, log entries 8, 12). -/
def Obligations.ClearScreenBlanksBothSlots : Prop :=
  ∀ s : State, ∃ t, exec .cls s = .next t ∧ (∀ k r c, t.pixel k r c = 0#8) ∧
    t.v = s.v ∧ t.idx = s.idx ∧ t.pc = s.pc ∧ t.mem = s.mem ∧ t.status = s.status ∧
    (s.inside = [] → t.cur = s.cur ∧ t = { s with fb0 := t.fb0, fb1 := t.fb1, free := t.free, between := t.between })

/-- A presentation read between the two clears of a CLS, at any place among the transactions that fall there, answers the slot that
is current at that moment (each swap before it has flipped it): blank if that slot was cleared first, and as it was before the CLS
otherwise; no statement says which (R148, 70_reset_and_hazards.md R194; D25; the lists `between` and `outputs` are the model's own,
log entries 12 and 13). -/
def Obligations.ReadBetweenTheClears : Prop :=
  ∀ (s : State) (earlier later : List SharedOp), s.inside = earlier ++ .readCurrent :: later →
    ∃ t g before after, exec .cls s = .next t ∧ t.outputs = after ++ .frame g :: (before ++ s.outputs) ∧
      before.length = earlier.countP (·.answers) ∧ after.length = later.countP (·.answers) ∧
      ((Config.clearedFirst s.free = currentAfter s.cur earlier ∧ ∀ r c, gridPixel g r c = 0#8) ∨
       (Config.clearedFirst s.free ≠ currentAfter s.cur earlier ∧
          ∀ r c, gridPixel g r c = s.pixel (currentAfter s.cur earlier) r c))

/-- DRW draws the sprite of the bytes at idx into the inactive slot: a pixel the sprite covers at the wrapped and flipped origin
is XORed (on goes off, off goes on), every other pixel of that slot and the whole current slot are unchanged, and nothing but
pixels and V[F] changes (R146, R147, R149, R151, R152; D14, D15, D16, D26, D38, D39). -/
def Obligations.DrawTogglesCoveredPixels : Prop :=
  ∀ (x y n : Nibble) (s : State) (rows : List Byte), decode (wordXYN 0xD#4 x y n) = .drw x y n ∧
    (rows.length = n.toNat → (∀ k (h : k < rows.length), s.readByte (s.idx.toNat + k) = some rows[k]) →
      ∃ t, exec (.drw x y n) s = .next t ∧
        (∀ r c, (spriteCovers (s.reg x) (s.reg y) rows r c →
            t.pixel (otherSlot s.cur) r c = if s.pixel (otherSlot s.cur) r c = 0#8 then 255#8 else 0#8) ∧
          (¬ spriteCovers (s.reg x) (s.reg y) rows r c →
            t.pixel (otherSlot s.cur) r c = s.pixel (otherSlot s.cur) r c) ∧
          t.pixel s.cur r c = s.pixel s.cur r c) ∧
        t = { s with v := t.v, fb0 := t.fb0, fb1 := t.fb1 } ∧ ∀ r, r ≠ 0xF#4 → t.reg r = s.reg r)

/-- DRW's V[F]: 1 when a pixel was turned off, otherwise 0 or unchanged as DRAW_VF_CLEAR says (R150; D13). -/
def Obligations.DrawReportsErasure : Prop :=
  ∀ (x y n : Nibble) (s : State) (rows : List Byte),
    rows.length = n.toNat → (∀ k (h : k < rows.length), s.readByte (s.idx.toNat + k) = some rows[k]) →
    ∃ t, exec (.drw x y n) s = .next t ∧
      ((∃ r c, spriteCovers (s.reg x) (s.reg y) rows r c ∧ s.pixel (otherSlot s.cur) r c ≠ 0#8) → t.reg 0xF#4 = 1#8) ∧
      (¬ (∃ r c, spriteCovers (s.reg x) (s.reg y) rows r c ∧ s.pixel (otherSlot s.cur) r c ≠ 0#8) →
        t.reg 0xF#4 = if Config.drawVfClear = true then 0#8 else s.reg 0xF#4)

/-- DRW with a sprite that passes the end of memory raises SPRITE_OOB with idx and writes no pixel (R149, R151, R162; D17,
D24). -/
def Obligations.DrawBeyondMemoryFaults : Prop :=
  ∀ (x y n : Nibble) (s : State), 0 < n.toNat → 0x1000 < s.idx.toNat + n.toNat →
    exec (.drw x y n) s = .next { s with status := .faulted .spriteOob s.idx }

/-- The interpreter writes the current slot only through CLS, and DRW writes only the other slot; of the presentation consumer's
operations swap changes `cur` alone and a read changes nothing but the outputs (R155). -/
def Obligations.WhoWritesWhichSlot : Prop :=
  (∀ (i : Instr) (s t : State), exec i s = .next t → i ≠ .cls →
    t.slot s.cur = s.slot s.cur ∧ ((∀ x y n, i ≠ .drw x y n) → ∀ k, t.slot k = s.slot k)) ∧
  ∀ s : State,
    (s.nextRequest = .shared .swap → step s = .next { s.popped with cur := otherSlot s.cur }) ∧
    (s.nextRequest = .shared .readCurrent → ∃ t, step s = .next t ∧ t = { s.popped with outputs := t.outputs })

/-- Swap is the only operation that changes which slot is current: it flips `cur` and writes no pixel, and two swaps return to the
slot that was current (R144). The other steps that can change `cur` are a reset (R180; D35) and a CLS that a swap falls inside (R148;
D25; log entry 12). -/
def Obligations.OnlySwapChangesCurrentSlot : Prop :=
  (∀ s : State, s.nextRequest = .shared .swap →
    ∃ t, step s = .next t ∧ t.cur = otherSlot s.cur ∧ (∀ k r c, t.pixel k r c = s.pixel k r c) ∧
      (t.nextRequest = .shared .swap → ∃ u, step t = .next u ∧ u.cur = s.cur ∧ ∀ k r c, u.pixel k r c = s.pixel k r c)) ∧
  ∀ s t : State, step s = .next t → t.cur ≠ s.cur →
    s.nextRequest = .shared .swap ∨ s.nextRequest = .reset ∨
    (s.CycleDue ∧ (∃ w, s.fetchWord = some w ∧ decode w = .cls) ∧ SharedOp.swap ∈ s.popped.inside)

/-- A presentation read answers a copy of the slot that is current at its transaction, after a swap the other one, and writes
nothing (R145; D41; log entry 13). -/
def Obligations.ReadAnswersCurrentSlot : Prop :=
  ∀ s : State,
    (s.nextRequest = .shared .readCurrent →
      step s = .next { s.popped with outputs := .frame (s.slot s.cur) :: s.outputs }) ∧
    (s.nextRequest = .shared .swap → ∃ t, step s = .next t ∧
      (t.nextRequest = .shared .readCurrent →
        step t = .next { t.popped with outputs := .frame (s.slot (otherSlot s.cur)) :: s.outputs }))

/-! ## Timers and the other ports -/

/-- `k` ticks take `k` from each counter, with a floor at 0, and change nothing else, whatever the status (60_exceptions.md R169,
R178; D27, D45). -/
def Obligations.TicksCountDownToZero : Prop :=
  ∀ (k : Nat) (s : State) (rest : List Request), s.agenda = List.replicate k (.shared .tick) ++ rest → s.tickStopped = false →
    ∃ t, Host.Core.run core k s = .next t ∧ t.dt.toNat = s.dt.toNat - k ∧ t.st.toNat = s.st.toNat - k ∧
      t = { s with dt := t.dt, st := t.st, agenda := rest }

/-- The outside agents can go on without end: where they swap and tick over and over, after any number `k` of rounds the slot has
been flipped `k` times and each counter has been ticked `k` times, and they go on to do the same (00_scope.md R27,
70_reset_and_hazards.md R186; D29; the form of the schedule is the model's own, log entry 11). -/
def Obligations.SwapsAndTicksWithoutEnd : Prop :=
  ∀ (k : Nat) (s : State) (ops : List SharedOp), s.agenda = [] → s.outside = .repeating [.shared .swap, .shared .tick] ops →
    s.tickStopped = false →
    ∃ t, Host.Core.run core (2 * k) s = .next t ∧ t.cur = (if k % 2 = 0 then s.cur else otherSlot s.cur) ∧
      t.dt.toNat = s.dt.toNat - k ∧ t.st.toNat = s.st.toNat - k ∧ t = { s with cur := t.cur, dt := t.dt, st := t.st }

/-- The ports on the counters and the status: a write sets one counter and leaves the other, a read of the timers answers both, a read
of the status answers it, and a read writes nothing (R171; D28; 10_state.md R36, 70_reset_and_hazards.md R184; D24; the list the
answers go to is the model's own, log entry 13). -/
def Obligations.HostTimerPorts : Prop :=
  ∀ (s : State) (u : Byte),
    (s.nextRequest = .shared (.writeTimer .delay u) → step s = .next { s.popped with dt := u }) ∧
    (s.nextRequest = .shared (.writeTimer .sound u) → step s = .next { s.popped with st := u }) ∧
    (s.nextRequest = .shared .readTimers → step s = .next { s.popped with outputs := .timers s.dt s.st :: s.outputs }) ∧
    (s.nextRequest = .shared .readStatus → step s = .next { s.popped with outputs := .status s.status :: s.outputs })

/-- No instruction observes the timers: with other counter values it does the same and leaves those values as they are, unless
transactions of other agents fall inside it (60_exceptions.md R172, 70_reset_and_hazards.md R193). -/
def Obligations.TimersDoNotInfluenceInstructions : Prop :=
  ∀ (i : Instr) (s : State) (d u : Byte), i ≠ .cls ∨ s.inside = [] →
    ∃ t, exec i s = .next t ∧ exec i { s with dt := d, st := u } = .next { t with dt := d, st := u }

/-- The other agents' transactions on shared state go on whatever the status, and touch none of the interpreter's private state
(60_exceptions.md R178, 20_memory.md R62; D45). -/
def Obligations.SharedTransactionsLeavePrivateState : Prop :=
  ∀ (s : State) (op : SharedOp), s.nextRequest = .shared op →
    ∃ t, step s = .next t ∧ t.agenda = s.popped.agenda ∧ (∀ r, t.reg r = s.reg r) ∧ t.idx = s.idx ∧ t.pc = s.pc ∧
      t.status = s.status ∧ t.stack = s.stack ∧ t.sp = s.sp ∧ (∀ a, t.readByte a = s.readByte a) ∧
      (op ≠ .swap → t.cur = s.cur)

/-- Loading an image writes exactly its bytes from 0x200 and leaves every other byte, the font region among them, untouched
(20_memory.md R58). -/
def Obligations.LoadRoundTrip : Prop :=
  ∀ (s : State) (image : List Byte), s.nextRequest = .load image → s.boot = .awaitingLoad →
    image.length ≤ 3584 → s.mem.wf = true →
    ∃ t, step s = .next t ∧
      (∀ k (h : k < image.length), t.readByte (0x200 + k) = some image[k]) ∧
      ∀ a, a < 0x200 ∨ 0x200 + image.length ≤ a → t.readByte a = s.readByte a

/-- The load port: an accepted load changes nothing but memory and the launch; a load is refused when the image is longer than 3584
bytes, when the launch already had a load, and after the first cycle (20_memory.md R57; D44; log entries 13, 14 and 18). -/
def Obligations.LoadPortAcceptsOrRefuses : Prop :=
  ∀ (s : State) (image : List Byte), s.nextRequest = .load image →
    (s.boot = .awaitingLoad → image.length ≤ 3584 → ∃ t, step s = .next t ∧
      t = { s.popped with mem := t.mem, boot := .loaded, outputs := .loadAccepted :: s.outputs }) ∧
    (s.boot ≠ .awaitingLoad → step s = .refused .loadOutOfTurn) ∧
    (s.boot = .awaitingLoad → 3584 < image.length → step s = .refused (.loadTooLong image.length))

/-- A cycle ends the time of loading: after any enabled cycle, whatever its instruction, the launch has begun
(70_reset_and_hazards.md R182, R184; D44; log entry 14). -/
def Obligations.CycleEndsLoading : Prop :=
  ∀ s t : State, s.CycleDue → s.status = .running → s.driverStopped = false → step s = .next t → t.boot = .started

/-- After a stop of the driver no further requested cycle does anything, and after a stop of the tick source no further tick: a stop is
recorded and changes nothing else, it lasts until a reset whatever comes between, and while it lasts the stopped request does nothing;
so `k` of them in a row leave all as it was (40_cycle.md R99; D47; log entry 15). -/
def Obligations.StopEndsTheSchedule : Prop :=
  (∀ s : State,
    (s.nextRequest = .stop .driver → step s = .next { s.popped with driverStopped := true }) ∧
    (s.nextRequest = .stop .ticks → step s = .next { s.popped with tickStopped := true }) ∧
    (s.driverStopped = true → s.CycleDue → step s = .next s.popped) ∧
    (s.tickStopped = true → s.nextRequest = .shared .tick → step s = .next s.popped) ∧
    ∀ t, step s = .next t → s.nextRequest ≠ .reset →
      (s.driverStopped = true → t.driverStopped = true) ∧ (s.tickStopped = true → t.tickStopped = true)) ∧
  ∀ (s : State) (k : Nat) (rest : List Request),
    (s.agenda = .stop .driver :: (List.replicate k .step ++ rest) →
      Host.Core.run core (k + 1) s = .next { s with driverStopped := true, agenda := rest }) ∧
    (s.agenda = .stop .ticks :: (List.replicate k (.shared .tick) ++ rest) →
      Host.Core.run core (k + 1) s = .next { s with tickStopped := true, agenda := rest })

/-! ## Reset -/

/-- Memory after reset: 0x000 to 0x04F hold FONT and every other address 0; in every state memory is the addresses 0x000 to 0xFFF,
never more or fewer (10_state.md R40). -/
def Obligations.ResetMemory : Prop :=
  (∀ a (h : a < 80), State.reset.readByte a = some (Config.font ⟨a, h⟩)) ∧
  (∀ a, 80 ≤ a → a < 4096 → State.reset.readByte a = some 0#8) ∧
  ∀ (s : State) a, (∃ u, s.readByte a = some u) ↔ a < 4096

/-- Every other element of the block after reset (70_reset_and_hazards.md R181: D2, D3, D4, D5, D6, D24). -/
def Obligations.ResetValues : Prop :=
  (∀ r, State.reset.reg r = 0#8) ∧ State.reset.idx = 0#16 ∧ State.reset.pc = 0x200#16 ∧ State.reset.sp = 0 ∧
  (∀ k, State.reset.stackEntry k = 0#16) ∧ State.reset.status = .running ∧ State.reset.dt = 0#8 ∧ State.reset.st = 0#8 ∧
  (∀ k r c, State.reset.pixel k r c = 0#8) ∧ State.reset.cur = .zero

/-- The reset port gives the block the state after reset whatever it was, FAULTED or not; only the model's own fields stay
(70_reset_and_hazards.md R180, R181; D35; log entry 17). -/
def Obligations.ResetPortRestoresTheBlock : Prop :=
  ∀ s : State, s.nextRequest = .reset →
    step s = .next { State.reset with
      free := s.popped.free, agenda := s.popped.agenda, between := s.between, outside := s.outside, outputs := s.outputs }

/-- FAULTED lasts until reset: a step from a FAULTED state that is not a reset leaves the status, the registers, idx and pc as
they are (60_exceptions.md R165, 40_cycle.md R97; D24). -/
def Obligations.FaultedUntilReset : Prop :=
  ∀ s t : State, s.EndsBadly → s.nextRequest ≠ .reset → step s = .next t →
    t.status = s.status ∧ t.v = s.v ∧ t.idx = s.idx ∧ t.pc = s.pc

/-! ## Invariants and headline results -/

/-- The state after reset meets the invariant and records no fault. -/
def Obligations.ResetMeetsInvariant : Prop := State.reset.Inv ∧ State.reset.FaultRecord

/-- Every step keeps the invariant: memory in its canonical form and within 4096 bytes, every pixel 0 or 255 (R156), pc at most
0x1002 (10_state.md R34), `sp` and the stack within STACK_DEPTH (10_state.md R35). -/
def Obligations.StepKeepsInvariant : Prop := ∀ s t : State, s.Inv → step s = .next t → t.Inv

/-- Every step keeps what a FAULTED status records true of the state: the failed address, which pc or idx still shows, in the range
where that access fails (60_exceptions.md R162, R163; D24). -/
def Obligations.StepKeepsFaultRecord : Prop := ∀ s t : State, s.FaultRecord → step s = .next t → t.FaultRecord

/-- Running off the image: from any pc with only zero bytes from there to the end of memory, the requested cycles run NOPs to the end
and the last one faults with FETCH_OOB at 0x1000, or at 0x0FFF from an odd pc; nothing else of the block changes
(70_reset_and_hazards.md R191, 40_cycle.md R91, R93; D23, D24; `boot` is the model's own, log entry 14). -/
def Obligations.RunningOffTheImageFaults : Prop :=
  ∀ (s : State) (rest : List Request), s.agenda = List.replicate ((0x1000 - s.pc.toNat) / 2 + 1) .step ++ rest →
    s.status = .running → s.driverStopped = false → s.pc.toNat ≤ 0x1000 →
    (∀ a, s.pc.toNat ≤ a → a < 0x1000 → s.readByte a = some 0#8) →
    ∃ t, Host.Core.run core ((0x1000 - s.pc.toNat) / 2 + 1) s = .next t ∧
      t.pc.toNat = (if s.pc.toNat % 2 = 0 then 0x1000 else 0x0FFF) ∧
      t = { s with pc := t.pc, boot := .started, status := .faulted .fetchOob t.pc, agenda := rest }
end

