-- ==== Sys2Proof/Laws/Decode.lean ====
section
/-! SUPPORT. The fields of a word built from fields, and the bytes of a word. -/

namespace Sys2Proof

variable (op x y n : Nibble) (nn : Byte) (nnn : Addr12)

/-- A slice of the low part of a join. -/
theorem extract_append_low {a b : Nat} (u : BitVec a) (w : BitVec b) (s k : Nat) (h : s + k ≤ b) :
    (u ++ w).extractLsb' s k = w.extractLsb' s k := by
  ext i hi
  simp only [BitVec.getElem_extractLsb', BitVec.getLsbD_append]
  rw [if_pos (by omega)]

/-- A slice of the high part of a join. -/
theorem extract_append_high {a b : Nat} (u : BitVec a) (w : BitVec b) (s k : Nat) (h : b ≤ s) :
    (u ++ w).extractLsb' s k = u.extractLsb' (s - b) k := by
  ext i hi
  simp only [BitVec.getElem_extractLsb', BitVec.getLsbD_append]
  rw [if_neg (by omega)]
  congr 1
  omega

/-- The slice that is the whole. -/
theorem extract_whole {k : Nat} (u : BitVec k) : u.extractLsb' 0 k = u := by
  ext i hi; simp

/-- Two slices that meet. -/
theorem append_slices {m : Nat} (w : BitVec m) (s a b t : Nat) (h : t = s + b) :
    w.extractLsb' t a ++ w.extractLsb' s b = w.extractLsb' s (a + b) := by
  ext i hi
  simp only [BitVec.getElem_append, BitVec.getElem_extractLsb']
  split
  · rfl
  · congr 1; omega

@[simp] theorem opField_wordNnn : opField (wordNnn op nnn) = op := by
  rw [opField, wordNnn, extract_append_high _ _ _ _ (by omega)]; exact extract_whole op

@[simp] theorem nnnField_wordNnn : nnnField (wordNnn op nnn) = nnn := by
  rw [nnnField, wordNnn, extract_append_low _ _ _ _ (by omega)]; exact extract_whole nnn

@[simp] theorem opField_wordXNn : opField (wordXNn op x nn) = op := by
  rw [opField, wordXNn, extract_append_high _ _ _ _ (by omega), extract_append_high _ _ _ _ (by omega)]
  exact extract_whole op

@[simp] theorem xField_wordXNn : xField (wordXNn op x nn) = x := by
  rw [xField, wordXNn, extract_append_high _ _ _ _ (by omega), extract_append_low _ _ _ _ (by omega)]
  exact extract_whole x

@[simp] theorem nnField_wordXNn : nnField (wordXNn op x nn) = nn := by
  rw [nnField, wordXNn, extract_append_low _ _ _ _ (by omega)]; exact extract_whole nn

@[simp] theorem opField_wordXYN : opField (wordXYN op x y n) = op := by
  rw [opField, wordXYN, extract_append_high _ _ _ _ (by omega), extract_append_high _ _ _ _ (by omega),
    extract_append_high _ _ _ _ (by omega)]
  exact extract_whole op

@[simp] theorem xField_wordXYN : xField (wordXYN op x y n) = x := by
  rw [xField, wordXYN, extract_append_high _ _ _ _ (by omega), extract_append_high _ _ _ _ (by omega),
    extract_append_low _ _ _ _ (by omega)]
  exact extract_whole x

@[simp] theorem yField_wordXYN : yField (wordXYN op x y n) = y := by
  rw [yField, wordXYN, extract_append_high _ _ _ _ (by omega), extract_append_low _ _ _ _ (by omega)]
  exact extract_whole y

@[simp] theorem nField_wordXYN : nField (wordXYN op x y n) = n := by
  rw [nField, wordXYN, extract_append_low _ _ _ _ (by omega)]; exact extract_whole n

/-- The zero word is of class 0. -/
theorem opField_zero : opField 0x0000#16 = 0x0#4 := by decide

/-- A word of another class is not the zero word, so it goes to the primary dispatch (30_encoding.md R75). -/
theorem decode_of_op {w : Half} (h : opField w ≠ 0x0#4) : decode w = decodeClass w := by
  rw [decode, if_neg]
  rintro rfl
  exact h opField_zero

@[simp] theorem joinWord_hiByte_loByte (w : Half) : joinWord (hiByte w) (loByte w) = w :=
  (append_slices w 0 8 8 8 rfl).trans (extract_whole w)

@[simp] theorem hiByte_joinWord (hi lo : Byte) : hiByte (joinWord hi lo) = hi := by
  rw [hiByte, joinWord, extract_append_high _ _ _ _ (by omega)]; exact extract_whole hi

@[simp] theorem loByte_joinWord (hi lo : Byte) : loByte (joinWord hi lo) = lo := by
  rw [loByte, joinWord, extract_append_low _ _ _ _ (by omega)]; exact extract_whole lo

/-- A word from its fields. -/
theorem word_fields_xyn (w : Half) : wordXYN (opField w) (xField w) (yField w) (nField w) = w := by
  have h1 : opField w ++ xField w = w.extractLsb' 8 8 := append_slices w 8 4 4 12 rfl
  have h2 : w.extractLsb' 8 8 ++ yField w = w.extractLsb' 4 12 := append_slices w 4 8 4 8 rfl
  have h3 : w.extractLsb' 4 12 ++ nField w = w.extractLsb' 0 16 := append_slices w 0 12 4 4 rfl
  exact (congrArg (fun u => u ++ yField w ++ nField w) h1).trans
    ((congrArg (fun u => u ++ nField w) h2).trans (h3.trans (extract_whole w)))

theorem word_fields_xnn (w : Half) : wordXNn (opField w) (xField w) (nnField w) = w := by
  have h1 : opField w ++ xField w = w.extractLsb' 8 8 := append_slices w 8 4 4 12 rfl
  have h2 : w.extractLsb' 8 8 ++ nnField w = w.extractLsb' 0 16 := append_slices w 0 8 8 8 rfl
  exact (congrArg (fun u => u ++ nnField w) h1).trans (h2.trans (extract_whole w))

theorem word_fields_nnn (w : Half) : wordNnn (opField w) (nnnField w) = w :=
  (append_slices w 0 4 12 12 rfl).trans (extract_whole w)

end Sys2Proof
end

