-- ==== Sys2Proof/Laws/State.lean ====
section
/-! SUPPORT. One lemma per field per update of the state, so that no later proof unfolds a record update. -/

namespace Sys2Proof.Machine

variable (s : State)

/-- Taking the next request changes `agenda` and `free` alone: whatever reads neither keeps its value. -/
theorem popped_case {α : Sort _} (f : State → α) (h : ∀ a n, f { s with agenda := a, free := n } = f s) : f s.popped = f s := by
  unfold State.popped
  split
  · exact h _ s.free
  · split
    · exact h _ s.free
    · exact h s.agenda _

theorem popped_eq : s.popped = { s with agenda := s.popped.agenda, free := s.popped.free } := by
  unfold State.popped
  split
  · rfl
  · split <;> rfl

/-- With a request in the agenda, it is the one performed. -/
theorem nextRequest_cons {r : Request} {rest : List Request} (h : s.agenda = r :: rest) : s.nextRequest = r := by
  rw [State.nextRequest, h]

theorem popped_cons {r : Request} {rest : List Request} (h : s.agenda = r :: rest) : s.popped = { s with agenda := rest } := by
  rw [State.popped, h]


/-! ## setReg -/

@[simp] theorem setReg_v (r : Nibble) (b : Byte) : (s.setReg r b).v = s.v.set r.toNat b r.isLt := rfl
@[simp] theorem setReg_idx (r : Nibble) (b : Byte) : (s.setReg r b).idx = s.idx := rfl
@[simp] theorem setReg_pc (r : Nibble) (b : Byte) : (s.setReg r b).pc = s.pc := rfl
@[simp] theorem setReg_stack (r : Nibble) (b : Byte) : (s.setReg r b).stack = s.stack := rfl
@[simp] theorem setReg_sp (r : Nibble) (b : Byte) : (s.setReg r b).sp = s.sp := rfl
@[simp] theorem setReg_status (r : Nibble) (b : Byte) : (s.setReg r b).status = s.status := rfl
@[simp] theorem setReg_dt (r : Nibble) (b : Byte) : (s.setReg r b).dt = s.dt := rfl
@[simp] theorem setReg_st (r : Nibble) (b : Byte) : (s.setReg r b).st = s.st := rfl
@[simp] theorem setReg_fb0 (r : Nibble) (b : Byte) : (s.setReg r b).fb0 = s.fb0 := rfl
@[simp] theorem setReg_fb1 (r : Nibble) (b : Byte) : (s.setReg r b).fb1 = s.fb1 := rfl
@[simp] theorem setReg_cur (r : Nibble) (b : Byte) : (s.setReg r b).cur = s.cur := rfl
@[simp] theorem setReg_mem (r : Nibble) (b : Byte) : (s.setReg r b).mem = s.mem := rfl
@[simp] theorem setReg_boot (r : Nibble) (b : Byte) : (s.setReg r b).boot = s.boot := rfl
@[simp] theorem setReg_driverStopped (r : Nibble) (b : Byte) : (s.setReg r b).driverStopped = s.driverStopped := rfl
@[simp] theorem setReg_tickStopped (r : Nibble) (b : Byte) : (s.setReg r b).tickStopped = s.tickStopped := rfl
@[simp] theorem setReg_free (r : Nibble) (b : Byte) : (s.setReg r b).free = s.free := rfl
@[simp] theorem setReg_agenda (r : Nibble) (b : Byte) : (s.setReg r b).agenda = s.agenda := rfl
@[simp] theorem setReg_between (r : Nibble) (b : Byte) : (s.setReg r b).between = s.between := rfl
@[simp] theorem setReg_outside (r : Nibble) (b : Byte) : (s.setReg r b).outside = s.outside := rfl
@[simp] theorem setReg_outputs (r : Nibble) (b : Byte) : (s.setReg r b).outputs = s.outputs := rfl

/-! ## setPc -/

@[simp] theorem setPc_v (a : Half) : (s.setPc a).v = s.v := rfl
@[simp] theorem setPc_idx (a : Half) : (s.setPc a).idx = s.idx := rfl
@[simp] theorem setPc_pc (a : Half) : (s.setPc a).pc = a := rfl
@[simp] theorem setPc_stack (a : Half) : (s.setPc a).stack = s.stack := rfl
@[simp] theorem setPc_sp (a : Half) : (s.setPc a).sp = s.sp := rfl
@[simp] theorem setPc_status (a : Half) : (s.setPc a).status = s.status := rfl
@[simp] theorem setPc_dt (a : Half) : (s.setPc a).dt = s.dt := rfl
@[simp] theorem setPc_st (a : Half) : (s.setPc a).st = s.st := rfl
@[simp] theorem setPc_fb0 (a : Half) : (s.setPc a).fb0 = s.fb0 := rfl
@[simp] theorem setPc_fb1 (a : Half) : (s.setPc a).fb1 = s.fb1 := rfl
@[simp] theorem setPc_cur (a : Half) : (s.setPc a).cur = s.cur := rfl
@[simp] theorem setPc_mem (a : Half) : (s.setPc a).mem = s.mem := rfl
@[simp] theorem setPc_boot (a : Half) : (s.setPc a).boot = s.boot := rfl
@[simp] theorem setPc_driverStopped (a : Half) : (s.setPc a).driverStopped = s.driverStopped := rfl
@[simp] theorem setPc_tickStopped (a : Half) : (s.setPc a).tickStopped = s.tickStopped := rfl
@[simp] theorem setPc_free (a : Half) : (s.setPc a).free = s.free := rfl
@[simp] theorem setPc_agenda (a : Half) : (s.setPc a).agenda = s.agenda := rfl
@[simp] theorem setPc_between (a : Half) : (s.setPc a).between = s.between := rfl
@[simp] theorem setPc_outside (a : Half) : (s.setPc a).outside = s.outside := rfl
@[simp] theorem setPc_outputs (a : Half) : (s.setPc a).outputs = s.outputs := rfl

/-! ## setIdx -/

@[simp] theorem setIdx_v (a : Half) : (s.setIdx a).v = s.v := rfl
@[simp] theorem setIdx_idx (a : Half) : (s.setIdx a).idx = a := rfl
@[simp] theorem setIdx_pc (a : Half) : (s.setIdx a).pc = s.pc := rfl
@[simp] theorem setIdx_stack (a : Half) : (s.setIdx a).stack = s.stack := rfl
@[simp] theorem setIdx_sp (a : Half) : (s.setIdx a).sp = s.sp := rfl
@[simp] theorem setIdx_status (a : Half) : (s.setIdx a).status = s.status := rfl
@[simp] theorem setIdx_dt (a : Half) : (s.setIdx a).dt = s.dt := rfl
@[simp] theorem setIdx_st (a : Half) : (s.setIdx a).st = s.st := rfl
@[simp] theorem setIdx_fb0 (a : Half) : (s.setIdx a).fb0 = s.fb0 := rfl
@[simp] theorem setIdx_fb1 (a : Half) : (s.setIdx a).fb1 = s.fb1 := rfl
@[simp] theorem setIdx_cur (a : Half) : (s.setIdx a).cur = s.cur := rfl
@[simp] theorem setIdx_mem (a : Half) : (s.setIdx a).mem = s.mem := rfl
@[simp] theorem setIdx_boot (a : Half) : (s.setIdx a).boot = s.boot := rfl
@[simp] theorem setIdx_driverStopped (a : Half) : (s.setIdx a).driverStopped = s.driverStopped := rfl
@[simp] theorem setIdx_tickStopped (a : Half) : (s.setIdx a).tickStopped = s.tickStopped := rfl
@[simp] theorem setIdx_free (a : Half) : (s.setIdx a).free = s.free := rfl
@[simp] theorem setIdx_agenda (a : Half) : (s.setIdx a).agenda = s.agenda := rfl
@[simp] theorem setIdx_between (a : Half) : (s.setIdx a).between = s.between := rfl
@[simp] theorem setIdx_outside (a : Half) : (s.setIdx a).outside = s.outside := rfl
@[simp] theorem setIdx_outputs (a : Half) : (s.setIdx a).outputs = s.outputs := rfl

/-! ## raise -/

@[simp] theorem raise_v (c : Cause) (a : Half) : (s.raise c a).v = s.v := rfl
@[simp] theorem raise_idx (c : Cause) (a : Half) : (s.raise c a).idx = s.idx := rfl
@[simp] theorem raise_pc (c : Cause) (a : Half) : (s.raise c a).pc = s.pc := rfl
@[simp] theorem raise_stack (c : Cause) (a : Half) : (s.raise c a).stack = s.stack := rfl
@[simp] theorem raise_sp (c : Cause) (a : Half) : (s.raise c a).sp = s.sp := rfl
@[simp] theorem raise_status (c : Cause) (a : Half) : (s.raise c a).status = .faulted c a := rfl
@[simp] theorem raise_dt (c : Cause) (a : Half) : (s.raise c a).dt = s.dt := rfl
@[simp] theorem raise_st (c : Cause) (a : Half) : (s.raise c a).st = s.st := rfl
@[simp] theorem raise_fb0 (c : Cause) (a : Half) : (s.raise c a).fb0 = s.fb0 := rfl
@[simp] theorem raise_fb1 (c : Cause) (a : Half) : (s.raise c a).fb1 = s.fb1 := rfl
@[simp] theorem raise_cur (c : Cause) (a : Half) : (s.raise c a).cur = s.cur := rfl
@[simp] theorem raise_mem (c : Cause) (a : Half) : (s.raise c a).mem = s.mem := rfl
@[simp] theorem raise_boot (c : Cause) (a : Half) : (s.raise c a).boot = s.boot := rfl
@[simp] theorem raise_driverStopped (c : Cause) (a : Half) : (s.raise c a).driverStopped = s.driverStopped := rfl
@[simp] theorem raise_tickStopped (c : Cause) (a : Half) : (s.raise c a).tickStopped = s.tickStopped := rfl
@[simp] theorem raise_free (c : Cause) (a : Half) : (s.raise c a).free = s.free := rfl
@[simp] theorem raise_agenda (c : Cause) (a : Half) : (s.raise c a).agenda = s.agenda := rfl
@[simp] theorem raise_between (c : Cause) (a : Half) : (s.raise c a).between = s.between := rfl
@[simp] theorem raise_outside (c : Cause) (a : Half) : (s.raise c a).outside = s.outside := rfl
@[simp] theorem raise_outputs (c : Cause) (a : Half) : (s.raise c a).outputs = s.outputs := rfl

/-! ## emit -/

@[simp] theorem emit_v (o : Output) : (s.emit o).v = s.v := rfl
@[simp] theorem emit_idx (o : Output) : (s.emit o).idx = s.idx := rfl
@[simp] theorem emit_pc (o : Output) : (s.emit o).pc = s.pc := rfl
@[simp] theorem emit_stack (o : Output) : (s.emit o).stack = s.stack := rfl
@[simp] theorem emit_sp (o : Output) : (s.emit o).sp = s.sp := rfl
@[simp] theorem emit_status (o : Output) : (s.emit o).status = s.status := rfl
@[simp] theorem emit_dt (o : Output) : (s.emit o).dt = s.dt := rfl
@[simp] theorem emit_st (o : Output) : (s.emit o).st = s.st := rfl
@[simp] theorem emit_fb0 (o : Output) : (s.emit o).fb0 = s.fb0 := rfl
@[simp] theorem emit_fb1 (o : Output) : (s.emit o).fb1 = s.fb1 := rfl
@[simp] theorem emit_cur (o : Output) : (s.emit o).cur = s.cur := rfl
@[simp] theorem emit_mem (o : Output) : (s.emit o).mem = s.mem := rfl
@[simp] theorem emit_boot (o : Output) : (s.emit o).boot = s.boot := rfl
@[simp] theorem emit_driverStopped (o : Output) : (s.emit o).driverStopped = s.driverStopped := rfl
@[simp] theorem emit_tickStopped (o : Output) : (s.emit o).tickStopped = s.tickStopped := rfl
@[simp] theorem emit_free (o : Output) : (s.emit o).free = s.free := rfl
@[simp] theorem emit_agenda (o : Output) : (s.emit o).agenda = s.agenda := rfl
@[simp] theorem emit_between (o : Output) : (s.emit o).between = s.between := rfl
@[simp] theorem emit_outside (o : Output) : (s.emit o).outside = s.outside := rfl
@[simp] theorem emit_outputs (o : Output) : (s.emit o).outputs = o :: s.outputs := rfl

/-! ## takeFree -/

@[simp] theorem takeFree_v : s.takeFree.v = s.v := rfl
@[simp] theorem takeFree_idx : s.takeFree.idx = s.idx := rfl
@[simp] theorem takeFree_pc : s.takeFree.pc = s.pc := rfl
@[simp] theorem takeFree_stack : s.takeFree.stack = s.stack := rfl
@[simp] theorem takeFree_sp : s.takeFree.sp = s.sp := rfl
@[simp] theorem takeFree_status : s.takeFree.status = s.status := rfl
@[simp] theorem takeFree_dt : s.takeFree.dt = s.dt := rfl
@[simp] theorem takeFree_st : s.takeFree.st = s.st := rfl
@[simp] theorem takeFree_fb0 : s.takeFree.fb0 = s.fb0 := rfl
@[simp] theorem takeFree_fb1 : s.takeFree.fb1 = s.fb1 := rfl
@[simp] theorem takeFree_cur : s.takeFree.cur = s.cur := rfl
@[simp] theorem takeFree_mem : s.takeFree.mem = s.mem := rfl
@[simp] theorem takeFree_boot : s.takeFree.boot = s.boot := rfl
@[simp] theorem takeFree_driverStopped : s.takeFree.driverStopped = s.driverStopped := rfl
@[simp] theorem takeFree_tickStopped : s.takeFree.tickStopped = s.tickStopped := rfl
@[simp] theorem takeFree_free : s.takeFree.free = s.free + 1 := rfl
@[simp] theorem takeFree_agenda : s.takeFree.agenda = s.agenda := rfl
@[simp] theorem takeFree_between : s.takeFree.between = s.between := rfl
@[simp] theorem takeFree_outside : s.takeFree.outside = s.outside := rfl
@[simp] theorem takeFree_outputs : s.takeFree.outputs = s.outputs := rfl

/-! ## storeWord -/

@[simp] theorem storeWord_v (a : Nat) (w : Half) : (s.storeWord a w).v = s.v := rfl
@[simp] theorem storeWord_idx (a : Nat) (w : Half) : (s.storeWord a w).idx = s.idx := rfl
@[simp] theorem storeWord_pc (a : Nat) (w : Half) : (s.storeWord a w).pc = s.pc := rfl
@[simp] theorem storeWord_stack (a : Nat) (w : Half) : (s.storeWord a w).stack = s.stack := rfl
@[simp] theorem storeWord_sp (a : Nat) (w : Half) : (s.storeWord a w).sp = s.sp := rfl
@[simp] theorem storeWord_status (a : Nat) (w : Half) : (s.storeWord a w).status = s.status := rfl
@[simp] theorem storeWord_dt (a : Nat) (w : Half) : (s.storeWord a w).dt = s.dt := rfl
@[simp] theorem storeWord_st (a : Nat) (w : Half) : (s.storeWord a w).st = s.st := rfl
@[simp] theorem storeWord_fb0 (a : Nat) (w : Half) : (s.storeWord a w).fb0 = s.fb0 := rfl
@[simp] theorem storeWord_fb1 (a : Nat) (w : Half) : (s.storeWord a w).fb1 = s.fb1 := rfl
@[simp] theorem storeWord_cur (a : Nat) (w : Half) : (s.storeWord a w).cur = s.cur := rfl
@[simp] theorem storeWord_mem (a : Nat) (w : Half) : (s.storeWord a w).mem = s.mem.storeBytes a [hiByte w, loByte w] := rfl
@[simp] theorem storeWord_boot (a : Nat) (w : Half) : (s.storeWord a w).boot = s.boot := rfl
@[simp] theorem storeWord_driverStopped (a : Nat) (w : Half) : (s.storeWord a w).driverStopped = s.driverStopped := rfl
@[simp] theorem storeWord_tickStopped (a : Nat) (w : Half) : (s.storeWord a w).tickStopped = s.tickStopped := rfl
@[simp] theorem storeWord_free (a : Nat) (w : Half) : (s.storeWord a w).free = s.free := rfl
@[simp] theorem storeWord_agenda (a : Nat) (w : Half) : (s.storeWord a w).agenda = s.agenda := rfl
@[simp] theorem storeWord_between (a : Nat) (w : Half) : (s.storeWord a w).between = s.between := rfl
@[simp] theorem storeWord_outside (a : Nat) (w : Half) : (s.storeWord a w).outside = s.outside := rfl
@[simp] theorem storeWord_outputs (a : Nat) (w : Half) : (s.storeWord a w).outputs = s.outputs := rfl

/-! ## fetched -/

@[simp] theorem fetched_v : s.fetched.v = s.v := rfl
@[simp] theorem fetched_idx : s.fetched.idx = s.idx := rfl
@[simp] theorem fetched_pc : s.fetched.pc = s.pc + 2#16 := rfl
@[simp] theorem fetched_stack : s.fetched.stack = s.stack := rfl
@[simp] theorem fetched_sp : s.fetched.sp = s.sp := rfl
@[simp] theorem fetched_status : s.fetched.status = s.status := rfl
@[simp] theorem fetched_dt : s.fetched.dt = s.dt := rfl
@[simp] theorem fetched_st : s.fetched.st = s.st := rfl
@[simp] theorem fetched_fb0 : s.fetched.fb0 = s.fb0 := rfl
@[simp] theorem fetched_fb1 : s.fetched.fb1 = s.fb1 := rfl
@[simp] theorem fetched_cur : s.fetched.cur = s.cur := rfl
@[simp] theorem fetched_mem : s.fetched.mem = s.mem := rfl
@[simp] theorem fetched_boot : s.fetched.boot = .started := rfl
@[simp] theorem fetched_driverStopped : s.fetched.driverStopped = s.driverStopped := rfl
@[simp] theorem fetched_tickStopped : s.fetched.tickStopped = s.tickStopped := rfl
@[simp] theorem fetched_free : s.fetched.free = s.free := rfl
@[simp] theorem fetched_agenda : s.fetched.agenda = s.agenda := rfl
@[simp] theorem fetched_between : s.fetched.between = s.between := rfl
@[simp] theorem fetched_outside : s.fetched.outside = s.outside := rfl
@[simp] theorem fetched_outputs : s.fetched.outputs = s.outputs := rfl

/-! ## fetchFault -/

@[simp] theorem fetchFault_v : s.fetchFault.v = s.v := rfl
@[simp] theorem fetchFault_idx : s.fetchFault.idx = s.idx := rfl
@[simp] theorem fetchFault_pc : s.fetchFault.pc = s.pc := rfl
@[simp] theorem fetchFault_stack : s.fetchFault.stack = s.stack := rfl
@[simp] theorem fetchFault_sp : s.fetchFault.sp = s.sp := rfl
@[simp] theorem fetchFault_status : s.fetchFault.status = .faulted .fetchOob s.pc := rfl
@[simp] theorem fetchFault_dt : s.fetchFault.dt = s.dt := rfl
@[simp] theorem fetchFault_st : s.fetchFault.st = s.st := rfl
@[simp] theorem fetchFault_fb0 : s.fetchFault.fb0 = s.fb0 := rfl
@[simp] theorem fetchFault_fb1 : s.fetchFault.fb1 = s.fb1 := rfl
@[simp] theorem fetchFault_cur : s.fetchFault.cur = s.cur := rfl
@[simp] theorem fetchFault_mem : s.fetchFault.mem = s.mem := rfl
@[simp] theorem fetchFault_boot : s.fetchFault.boot = .started := rfl
@[simp] theorem fetchFault_driverStopped : s.fetchFault.driverStopped = s.driverStopped := rfl
@[simp] theorem fetchFault_tickStopped : s.fetchFault.tickStopped = s.tickStopped := rfl
@[simp] theorem fetchFault_free : s.fetchFault.free = s.free := rfl
@[simp] theorem fetchFault_agenda : s.fetchFault.agenda = s.agenda := rfl
@[simp] theorem fetchFault_between : s.fetchFault.between = s.between := rfl
@[simp] theorem fetchFault_outside : s.fetchFault.outside = s.outside := rfl
@[simp] theorem fetchFault_outputs : s.fetchFault.outputs = s.outputs := rfl

/-! ## swap -/

@[simp] theorem swap_v : (swap s).v = s.v := rfl
@[simp] theorem swap_idx : (swap s).idx = s.idx := rfl
@[simp] theorem swap_pc : (swap s).pc = s.pc := rfl
@[simp] theorem swap_stack : (swap s).stack = s.stack := rfl
@[simp] theorem swap_sp : (swap s).sp = s.sp := rfl
@[simp] theorem swap_status : (swap s).status = s.status := rfl
@[simp] theorem swap_dt : (swap s).dt = s.dt := rfl
@[simp] theorem swap_st : (swap s).st = s.st := rfl
@[simp] theorem swap_fb0 : (swap s).fb0 = s.fb0 := rfl
@[simp] theorem swap_fb1 : (swap s).fb1 = s.fb1 := rfl
@[simp] theorem swap_cur : (swap s).cur = otherSlot s.cur := rfl
@[simp] theorem swap_mem : (swap s).mem = s.mem := rfl
@[simp] theorem swap_boot : (swap s).boot = s.boot := rfl
@[simp] theorem swap_driverStopped : (swap s).driverStopped = s.driverStopped := rfl
@[simp] theorem swap_tickStopped : (swap s).tickStopped = s.tickStopped := rfl
@[simp] theorem swap_free : (swap s).free = s.free := rfl
@[simp] theorem swap_agenda : (swap s).agenda = s.agenda := rfl
@[simp] theorem swap_between : (swap s).between = s.between := rfl
@[simp] theorem swap_outside : (swap s).outside = s.outside := rfl
@[simp] theorem swap_outputs : (swap s).outputs = s.outputs := rfl

/-! ## tick -/

@[simp] theorem tick_v : (tick s).v = s.v := rfl
@[simp] theorem tick_idx : (tick s).idx = s.idx := rfl
@[simp] theorem tick_pc : (tick s).pc = s.pc := rfl
@[simp] theorem tick_stack : (tick s).stack = s.stack := rfl
@[simp] theorem tick_sp : (tick s).sp = s.sp := rfl
@[simp] theorem tick_status : (tick s).status = s.status := rfl
@[simp] theorem tick_dt : (tick s).dt = countDown s.dt := rfl
@[simp] theorem tick_st : (tick s).st = countDown s.st := rfl
@[simp] theorem tick_fb0 : (tick s).fb0 = s.fb0 := rfl
@[simp] theorem tick_fb1 : (tick s).fb1 = s.fb1 := rfl
@[simp] theorem tick_cur : (tick s).cur = s.cur := rfl
@[simp] theorem tick_mem : (tick s).mem = s.mem := rfl
@[simp] theorem tick_boot : (tick s).boot = s.boot := rfl
@[simp] theorem tick_driverStopped : (tick s).driverStopped = s.driverStopped := rfl
@[simp] theorem tick_tickStopped : (tick s).tickStopped = s.tickStopped := rfl
@[simp] theorem tick_free : (tick s).free = s.free := rfl
@[simp] theorem tick_agenda : (tick s).agenda = s.agenda := rfl
@[simp] theorem tick_between : (tick s).between = s.between := rfl
@[simp] theorem tick_outside : (tick s).outside = s.outside := rfl
@[simp] theorem tick_outputs : (tick s).outputs = s.outputs := rfl

/-! ## hostReset -/

@[simp] theorem hostReset_v : (hostReset s).v = State.reset.v := rfl
@[simp] theorem hostReset_idx : (hostReset s).idx = State.reset.idx := rfl
@[simp] theorem hostReset_pc : (hostReset s).pc = State.reset.pc := rfl
@[simp] theorem hostReset_stack : (hostReset s).stack = State.reset.stack := rfl
@[simp] theorem hostReset_sp : (hostReset s).sp = State.reset.sp := rfl
@[simp] theorem hostReset_status : (hostReset s).status = State.reset.status := rfl
@[simp] theorem hostReset_dt : (hostReset s).dt = State.reset.dt := rfl
@[simp] theorem hostReset_st : (hostReset s).st = State.reset.st := rfl
@[simp] theorem hostReset_fb0 : (hostReset s).fb0 = State.reset.fb0 := rfl
@[simp] theorem hostReset_fb1 : (hostReset s).fb1 = State.reset.fb1 := rfl
@[simp] theorem hostReset_cur : (hostReset s).cur = State.reset.cur := rfl
@[simp] theorem hostReset_mem : (hostReset s).mem = State.reset.mem := rfl
@[simp] theorem hostReset_boot : (hostReset s).boot = State.reset.boot := rfl
@[simp] theorem hostReset_driverStopped : (hostReset s).driverStopped = State.reset.driverStopped := rfl
@[simp] theorem hostReset_tickStopped : (hostReset s).tickStopped = State.reset.tickStopped := rfl
@[simp] theorem hostReset_free : (hostReset s).free = s.free := rfl
@[simp] theorem hostReset_agenda : (hostReset s).agenda = s.agenda := rfl
@[simp] theorem hostReset_between : (hostReset s).between = s.between := rfl
@[simp] theorem hostReset_outside : (hostReset s).outside = s.outside := rfl
@[simp] theorem hostReset_outputs : (hostReset s).outputs = s.outputs := rfl

/-! ## setSlot -/

@[simp] theorem setSlot_v (k : Slot) (g : Grid) : (s.setSlot k g).v = s.v := by cases k <;> rfl
@[simp] theorem setSlot_idx (k : Slot) (g : Grid) : (s.setSlot k g).idx = s.idx := by cases k <;> rfl
@[simp] theorem setSlot_pc (k : Slot) (g : Grid) : (s.setSlot k g).pc = s.pc := by cases k <;> rfl
@[simp] theorem setSlot_stack (k : Slot) (g : Grid) : (s.setSlot k g).stack = s.stack := by cases k <;> rfl
@[simp] theorem setSlot_sp (k : Slot) (g : Grid) : (s.setSlot k g).sp = s.sp := by cases k <;> rfl
@[simp] theorem setSlot_status (k : Slot) (g : Grid) : (s.setSlot k g).status = s.status := by cases k <;> rfl
@[simp] theorem setSlot_dt (k : Slot) (g : Grid) : (s.setSlot k g).dt = s.dt := by cases k <;> rfl
@[simp] theorem setSlot_st (k : Slot) (g : Grid) : (s.setSlot k g).st = s.st := by cases k <;> rfl
@[simp] theorem setSlot_cur (k : Slot) (g : Grid) : (s.setSlot k g).cur = s.cur := by cases k <;> rfl
@[simp] theorem setSlot_mem (k : Slot) (g : Grid) : (s.setSlot k g).mem = s.mem := by cases k <;> rfl
@[simp] theorem setSlot_boot (k : Slot) (g : Grid) : (s.setSlot k g).boot = s.boot := by cases k <;> rfl
@[simp] theorem setSlot_driverStopped (k : Slot) (g : Grid) : (s.setSlot k g).driverStopped = s.driverStopped := by cases k <;> rfl
@[simp] theorem setSlot_tickStopped (k : Slot) (g : Grid) : (s.setSlot k g).tickStopped = s.tickStopped := by cases k <;> rfl
@[simp] theorem setSlot_free (k : Slot) (g : Grid) : (s.setSlot k g).free = s.free := by cases k <;> rfl
@[simp] theorem setSlot_agenda (k : Slot) (g : Grid) : (s.setSlot k g).agenda = s.agenda := by cases k <;> rfl
@[simp] theorem setSlot_between (k : Slot) (g : Grid) : (s.setSlot k g).between = s.between := by cases k <;> rfl
@[simp] theorem setSlot_outside (k : Slot) (g : Grid) : (s.setSlot k g).outside = s.outside := by cases k <;> rfl
@[simp] theorem setSlot_outputs (k : Slot) (g : Grid) : (s.setSlot k g).outputs = s.outputs := by cases k <;> rfl

/-! ## writeTimer -/

@[simp] theorem writeTimer_v (w : Timer) (u : Byte) : (writeTimer w u s).v = s.v := by cases w <;> rfl
@[simp] theorem writeTimer_idx (w : Timer) (u : Byte) : (writeTimer w u s).idx = s.idx := by cases w <;> rfl
@[simp] theorem writeTimer_pc (w : Timer) (u : Byte) : (writeTimer w u s).pc = s.pc := by cases w <;> rfl
@[simp] theorem writeTimer_stack (w : Timer) (u : Byte) : (writeTimer w u s).stack = s.stack := by cases w <;> rfl
@[simp] theorem writeTimer_sp (w : Timer) (u : Byte) : (writeTimer w u s).sp = s.sp := by cases w <;> rfl
@[simp] theorem writeTimer_status (w : Timer) (u : Byte) : (writeTimer w u s).status = s.status := by cases w <;> rfl
@[simp] theorem writeTimer_fb0 (w : Timer) (u : Byte) : (writeTimer w u s).fb0 = s.fb0 := by cases w <;> rfl
@[simp] theorem writeTimer_fb1 (w : Timer) (u : Byte) : (writeTimer w u s).fb1 = s.fb1 := by cases w <;> rfl
@[simp] theorem writeTimer_cur (w : Timer) (u : Byte) : (writeTimer w u s).cur = s.cur := by cases w <;> rfl
@[simp] theorem writeTimer_mem (w : Timer) (u : Byte) : (writeTimer w u s).mem = s.mem := by cases w <;> rfl
@[simp] theorem writeTimer_boot (w : Timer) (u : Byte) : (writeTimer w u s).boot = s.boot := by cases w <;> rfl
@[simp] theorem writeTimer_driverStopped (w : Timer) (u : Byte) : (writeTimer w u s).driverStopped = s.driverStopped := by cases w <;> rfl
@[simp] theorem writeTimer_tickStopped (w : Timer) (u : Byte) : (writeTimer w u s).tickStopped = s.tickStopped := by cases w <;> rfl
@[simp] theorem writeTimer_free (w : Timer) (u : Byte) : (writeTimer w u s).free = s.free := by cases w <;> rfl
@[simp] theorem writeTimer_agenda (w : Timer) (u : Byte) : (writeTimer w u s).agenda = s.agenda := by cases w <;> rfl
@[simp] theorem writeTimer_between (w : Timer) (u : Byte) : (writeTimer w u s).between = s.between := by cases w <;> rfl
@[simp] theorem writeTimer_outside (w : Timer) (u : Byte) : (writeTimer w u s).outside = s.outside := by cases w <;> rfl
@[simp] theorem writeTimer_outputs (w : Timer) (u : Byte) : (writeTimer w u s).outputs = s.outputs := by cases w <;> rfl

/-! ## stop -/

@[simp] theorem stop_v (w : Stopped) : (stop w s).v = s.v := by cases w <;> rfl
@[simp] theorem stop_idx (w : Stopped) : (stop w s).idx = s.idx := by cases w <;> rfl
@[simp] theorem stop_pc (w : Stopped) : (stop w s).pc = s.pc := by cases w <;> rfl
@[simp] theorem stop_stack (w : Stopped) : (stop w s).stack = s.stack := by cases w <;> rfl
@[simp] theorem stop_sp (w : Stopped) : (stop w s).sp = s.sp := by cases w <;> rfl
@[simp] theorem stop_status (w : Stopped) : (stop w s).status = s.status := by cases w <;> rfl
@[simp] theorem stop_dt (w : Stopped) : (stop w s).dt = s.dt := by cases w <;> rfl
@[simp] theorem stop_st (w : Stopped) : (stop w s).st = s.st := by cases w <;> rfl
@[simp] theorem stop_fb0 (w : Stopped) : (stop w s).fb0 = s.fb0 := by cases w <;> rfl
@[simp] theorem stop_fb1 (w : Stopped) : (stop w s).fb1 = s.fb1 := by cases w <;> rfl
@[simp] theorem stop_cur (w : Stopped) : (stop w s).cur = s.cur := by cases w <;> rfl
@[simp] theorem stop_mem (w : Stopped) : (stop w s).mem = s.mem := by cases w <;> rfl
@[simp] theorem stop_boot (w : Stopped) : (stop w s).boot = s.boot := by cases w <;> rfl
@[simp] theorem stop_free (w : Stopped) : (stop w s).free = s.free := by cases w <;> rfl
@[simp] theorem stop_agenda (w : Stopped) : (stop w s).agenda = s.agenda := by cases w <;> rfl
@[simp] theorem stop_between (w : Stopped) : (stop w s).between = s.between := by cases w <;> rfl
@[simp] theorem stop_outside (w : Stopped) : (stop w s).outside = s.outside := by cases w <;> rfl
@[simp] theorem stop_outputs (w : Stopped) : (stop w s).outputs = s.outputs := by cases w <;> rfl

/-! ## skipIf -/

@[simp] theorem skipIf_v (c : Bool) : (s.skipIf c).v = s.v := by cases c <;> rfl
@[simp] theorem skipIf_idx (c : Bool) : (s.skipIf c).idx = s.idx := by cases c <;> rfl
@[simp] theorem skipIf_stack (c : Bool) : (s.skipIf c).stack = s.stack := by cases c <;> rfl
@[simp] theorem skipIf_sp (c : Bool) : (s.skipIf c).sp = s.sp := by cases c <;> rfl
@[simp] theorem skipIf_status (c : Bool) : (s.skipIf c).status = s.status := by cases c <;> rfl
@[simp] theorem skipIf_dt (c : Bool) : (s.skipIf c).dt = s.dt := by cases c <;> rfl
@[simp] theorem skipIf_st (c : Bool) : (s.skipIf c).st = s.st := by cases c <;> rfl
@[simp] theorem skipIf_fb0 (c : Bool) : (s.skipIf c).fb0 = s.fb0 := by cases c <;> rfl
@[simp] theorem skipIf_fb1 (c : Bool) : (s.skipIf c).fb1 = s.fb1 := by cases c <;> rfl
@[simp] theorem skipIf_cur (c : Bool) : (s.skipIf c).cur = s.cur := by cases c <;> rfl
@[simp] theorem skipIf_mem (c : Bool) : (s.skipIf c).mem = s.mem := by cases c <;> rfl
@[simp] theorem skipIf_boot (c : Bool) : (s.skipIf c).boot = s.boot := by cases c <;> rfl
@[simp] theorem skipIf_driverStopped (c : Bool) : (s.skipIf c).driverStopped = s.driverStopped := by cases c <;> rfl
@[simp] theorem skipIf_tickStopped (c : Bool) : (s.skipIf c).tickStopped = s.tickStopped := by cases c <;> rfl
@[simp] theorem skipIf_free (c : Bool) : (s.skipIf c).free = s.free := by cases c <;> rfl
@[simp] theorem skipIf_agenda (c : Bool) : (s.skipIf c).agenda = s.agenda := by cases c <;> rfl
@[simp] theorem skipIf_between (c : Bool) : (s.skipIf c).between = s.between := by cases c <;> rfl
@[simp] theorem skipIf_outside (c : Bool) : (s.skipIf c).outside = s.outside := by cases c <;> rfl
@[simp] theorem skipIf_outputs (c : Bool) : (s.skipIf c).outputs = s.outputs := by cases c <;> rfl

/-! ## popped -/

@[simp] theorem popped_v : s.popped.v = s.v := by exact popped_case s (State.v) (fun _ _ => rfl)
@[simp] theorem popped_idx : s.popped.idx = s.idx := by exact popped_case s (State.idx) (fun _ _ => rfl)
@[simp] theorem popped_pc : s.popped.pc = s.pc := by exact popped_case s (State.pc) (fun _ _ => rfl)
@[simp] theorem popped_stack : s.popped.stack = s.stack := by exact popped_case s (State.stack) (fun _ _ => rfl)
@[simp] theorem popped_sp : s.popped.sp = s.sp := by exact popped_case s (State.sp) (fun _ _ => rfl)
@[simp] theorem popped_status : s.popped.status = s.status := by exact popped_case s (State.status) (fun _ _ => rfl)
@[simp] theorem popped_dt : s.popped.dt = s.dt := by exact popped_case s (State.dt) (fun _ _ => rfl)
@[simp] theorem popped_st : s.popped.st = s.st := by exact popped_case s (State.st) (fun _ _ => rfl)
@[simp] theorem popped_fb0 : s.popped.fb0 = s.fb0 := by exact popped_case s (State.fb0) (fun _ _ => rfl)
@[simp] theorem popped_fb1 : s.popped.fb1 = s.fb1 := by exact popped_case s (State.fb1) (fun _ _ => rfl)
@[simp] theorem popped_cur : s.popped.cur = s.cur := by exact popped_case s (State.cur) (fun _ _ => rfl)
@[simp] theorem popped_mem : s.popped.mem = s.mem := by exact popped_case s (State.mem) (fun _ _ => rfl)
@[simp] theorem popped_boot : s.popped.boot = s.boot := by exact popped_case s (State.boot) (fun _ _ => rfl)
@[simp] theorem popped_driverStopped : s.popped.driverStopped = s.driverStopped := by exact popped_case s (State.driverStopped) (fun _ _ => rfl)
@[simp] theorem popped_tickStopped : s.popped.tickStopped = s.tickStopped := by exact popped_case s (State.tickStopped) (fun _ _ => rfl)
@[simp] theorem popped_between : s.popped.between = s.between := by exact popped_case s (State.between) (fun _ _ => rfl)
@[simp] theorem popped_outside : s.popped.outside = s.outside := by exact popped_case s (State.outside) (fun _ _ => rfl)
@[simp] theorem popped_outputs : s.popped.outputs = s.outputs := by exact popped_case s (State.outputs) (fun _ _ => rfl)

/-! ## setDrawFlag -/

@[simp] theorem setDrawFlag_idx (c d : Bool) : (s.setDrawFlag c d).idx = s.idx := by cases c <;> cases d <;> rfl
@[simp] theorem setDrawFlag_pc (c d : Bool) : (s.setDrawFlag c d).pc = s.pc := by cases c <;> cases d <;> rfl
@[simp] theorem setDrawFlag_stack (c d : Bool) : (s.setDrawFlag c d).stack = s.stack := by cases c <;> cases d <;> rfl
@[simp] theorem setDrawFlag_sp (c d : Bool) : (s.setDrawFlag c d).sp = s.sp := by cases c <;> cases d <;> rfl
@[simp] theorem setDrawFlag_status (c d : Bool) : (s.setDrawFlag c d).status = s.status := by cases c <;> cases d <;> rfl
@[simp] theorem setDrawFlag_dt (c d : Bool) : (s.setDrawFlag c d).dt = s.dt := by cases c <;> cases d <;> rfl
@[simp] theorem setDrawFlag_st (c d : Bool) : (s.setDrawFlag c d).st = s.st := by cases c <;> cases d <;> rfl
@[simp] theorem setDrawFlag_fb0 (c d : Bool) : (s.setDrawFlag c d).fb0 = s.fb0 := by cases c <;> cases d <;> rfl
@[simp] theorem setDrawFlag_fb1 (c d : Bool) : (s.setDrawFlag c d).fb1 = s.fb1 := by cases c <;> cases d <;> rfl
@[simp] theorem setDrawFlag_cur (c d : Bool) : (s.setDrawFlag c d).cur = s.cur := by cases c <;> cases d <;> rfl
@[simp] theorem setDrawFlag_mem (c d : Bool) : (s.setDrawFlag c d).mem = s.mem := by cases c <;> cases d <;> rfl
@[simp] theorem setDrawFlag_boot (c d : Bool) : (s.setDrawFlag c d).boot = s.boot := by cases c <;> cases d <;> rfl
@[simp] theorem setDrawFlag_driverStopped (c d : Bool) : (s.setDrawFlag c d).driverStopped = s.driverStopped := by cases c <;> cases d <;> rfl
@[simp] theorem setDrawFlag_tickStopped (c d : Bool) : (s.setDrawFlag c d).tickStopped = s.tickStopped := by cases c <;> cases d <;> rfl
@[simp] theorem setDrawFlag_free (c d : Bool) : (s.setDrawFlag c d).free = s.free := by cases c <;> cases d <;> rfl
@[simp] theorem setDrawFlag_agenda (c d : Bool) : (s.setDrawFlag c d).agenda = s.agenda := by cases c <;> cases d <;> rfl
@[simp] theorem setDrawFlag_between (c d : Bool) : (s.setDrawFlag c d).between = s.between := by cases c <;> cases d <;> rfl
@[simp] theorem setDrawFlag_outside (c d : Bool) : (s.setDrawFlag c d).outside = s.outside := by cases c <;> cases d <;> rfl
@[simp] theorem setDrawFlag_outputs (c d : Bool) : (s.setDrawFlag c d).outputs = s.outputs := by cases c <;> cases d <;> rfl

/-! ## The changed field of an update that chooses -/

@[simp] theorem setSlot_slot_self (k : Slot) (g : Grid) : (s.setSlot k g).slot k = g := by cases k <;> rfl

@[simp] theorem setSlot_slot_other (k : Slot) (g : Grid) : (s.setSlot k g).slot (otherSlot k) = s.slot (otherSlot k) := by
  cases k <;> rfl

theorem setSlot_slot (k j : Slot) (g : Grid) : (s.setSlot k g).slot j = if j = k then g else s.slot j := by
  cases k <;> cases j <;> rfl

@[simp] theorem otherSlot_otherSlot (k : Slot) : otherSlot (otherSlot k) = k := by cases k <;> rfl

@[simp] theorem otherSlot_ne (k : Slot) : otherSlot k ≠ k := by cases k <;> simp [otherSlot]

@[simp] theorem ne_otherSlot (k : Slot) : k ≠ otherSlot k := by cases k <;> simp [otherSlot]

theorem skipIf_pc (c : Bool) : (s.skipIf c).pc = if c then s.pc + 2#16 else s.pc := by cases c <;> rfl

end Sys2Proof.Machine
end

