-- ==== Sys2Proof/Laws/Framebuffer.lean ====
section
/-! SUPPORT. What the framebuffer operations do, once each: clear, plot, a sprite row, a whole draw. -/

namespace Sys2Proof.Machine

/-! ## Pixels -/

theorem gridPixel_setGridPixel (g : Grid) (r r' : Fin screenH) (c c' : Fin screenW) (p : Byte) :
    gridPixel (setGridPixel g r c p) r' c' = if r' = r ∧ c' = c then p else gridPixel g r' c' := by
  simp only [gridPixel, setGridPixel, Vector.getElem_set]
  by_cases hr : r' = r
  · subst hr
    by_cases hc : c' = c
    · subst hc; simp
    · have : c.val ≠ c'.val := fun h => hc (Fin.ext h).symm
      simp [this, hc]
  · have : r.val ≠ r'.val := fun h => hr (Fin.ext h).symm
    simp [this, hr]

@[simp] theorem gridPixel_blankGrid (r : Fin screenH) (c : Fin screenW) : gridPixel blankGrid r c = pixelOff := by
  simp [gridPixel, blankGrid]

theorem pixel_setSlot (s : State) (k j : Slot) (g : Grid) (r : Fin screenH) (c : Fin screenW) :
    (s.setSlot k g).pixel j r c = if j = k then gridPixel g r c else s.pixel j r c := by
  simp only [State.pixel, setSlot_slot]
  split <;> rfl

/-- Grids are equal when every pixel is. -/
theorem grid_ext {g h : Grid} (e : ∀ r c, gridPixel g r c = gridPixel h r c) : g = h := by
  apply Vector.ext
  intro r hr
  apply Vector.ext
  intro c hc
  exact e ⟨r, hr⟩ ⟨c, hc⟩

/-! ## Draw -/

theorem togglePixel_legal (p : Byte) : legalPixel (togglePixel p) := by
  unfold togglePixel legalPixel; split <;> simp

theorem plot_pixel (cv : Canvas) (r r' : Fin screenH) (c c' : Fin screenW) :
    gridPixel (plot cv r c).grid r' c' =
      if r' = r ∧ c' = c then togglePixel (gridPixel cv.grid r' c') else gridPixel cv.grid r' c' := by
  unfold plot togglePixel
  split
  · rename_i h
    rw [gridPixel_setGridPixel]
    by_cases e : r' = r ∧ c' = c
    · obtain ⟨rfl, rfl⟩ := e; simp [h]
    · simp [e]
  · rename_i h
    rw [gridPixel_setGridPixel]
    by_cases e : r' = r ∧ c' = c
    · obtain ⟨rfl, rfl⟩ := e; simp [h]
    · simp [e]

theorem plot_collision (cv : Canvas) (r : Fin screenH) (c : Fin screenW) :
    (plot cv r c).collision = (cv.collision || gridPixel cv.grid r c != 0#8) := by
  unfold plot
  split
  · rename_i h; simp [h]
  · rename_i h; simp at h; simp [h]

/-- The columns of one sprite row: each covered pixel is toggled once, and a collision is a covered pixel that was on. -/
theorem drawColumns_spec (bits : Byte) (r : Fin screenH) (ox : Nat) : ∀ (cols : List Nat), cols.Nodup → ∀ (cv : Canvas),
    (∀ r' c', gridPixel (cols.foldl (drawColumn bits r ox) cv).grid r' c' =
      if r' = r ∧ ∃ j ∈ cols, spriteBit bits j = true ∧ c'.val = ox + j then togglePixel (gridPixel cv.grid r' c')
      else gridPixel cv.grid r' c') ∧
    ((cols.foldl (drawColumn bits r ox) cv).collision = true ↔ cv.collision = true ∨
      ∃ j ∈ cols, ∃ c : Fin screenW, spriteBit bits j = true ∧ c.val = ox + j ∧ gridPixel cv.grid r c ≠ 0#8) := by
  intro cols
  induction cols with
  | nil => intro _ cv; simp
  | cons j cols ih =>
    intro hn cv
    obtain ⟨hj, hn⟩ := List.nodup_cons.mp hn
    obtain ⟨ihp, ihc⟩ := ih hn (drawColumn bits r ox cv j)
    by_cases hd : spriteBit bits j = true ∧ ox + j < screenW
    · obtain ⟨hb, hlt⟩ := hd
      have e : drawColumn bits r ox cv j = plot cv r ⟨ox + j, hlt⟩ := by simp only [drawColumn, hb, if_true, dif_pos hlt]
      rw [e] at ihp ihc
      constructor
      · intro r' c'
        rw [List.foldl_cons, e, ihp r' c', plot_pixel]
        by_cases h1 : r' = r ∧ c' = ⟨ox + j, hlt⟩
        · obtain ⟨rfl, rfl⟩ := h1
          have h2 : ¬ (r' = r' ∧ ∃ j' ∈ cols, spriteBit bits j' = true ∧ ox + j = ox + j') := by
            rintro ⟨-, j', hm, -, he⟩
            have : j = j' := by omega
            exact hj (this ▸ hm)
          rw [if_neg h2, if_pos ⟨rfl, rfl⟩, if_pos ⟨rfl, j, List.mem_cons_self .., hb, rfl⟩]
        · have h3 : ¬ (r' = r ∧ c'.val = ox + j) := fun h => h1 ⟨h.1, Fin.ext h.2⟩
          rw [if_neg h1]
          by_cases h4 : r' = r ∧ ∃ j' ∈ cols, spriteBit bits j' = true ∧ c'.val = ox + j'
          · rw [if_pos h4, if_pos ⟨h4.1, by obtain ⟨-, j', hm, h⟩ := h4; exact ⟨j', List.mem_cons_of_mem _ hm, h⟩⟩]
          · rw [if_neg h4, if_neg]
            rintro ⟨hr, j', hm, h⟩
            rcases List.mem_cons.mp hm with rfl | hm
            · exact h3 ⟨hr, h.2⟩
            · exact h4 ⟨hr, j', hm, h⟩
      · rw [List.foldl_cons, e, ihc, plot_collision, Bool.or_eq_true, bne_iff_ne]
        constructor
        · rintro ((h | h) | ⟨j', hm, c, hb', hc, hp⟩)
          · exact .inl h
          · exact .inr ⟨j, List.mem_cons_self .., ⟨ox + j, hlt⟩, hb, rfl, h⟩
          · refine .inr ⟨j', List.mem_cons_of_mem _ hm, c, hb', hc, ?_⟩
            rw [plot_pixel, if_neg] at hp
            · exact hp
            · rintro ⟨-, rfl⟩
              have : j = j' := by simp at hc; omega
              exact hj (this ▸ hm)
        · rintro (h | ⟨j', hm, c, hb', hc, hp⟩)
          · exact .inl (.inl h)
          · rcases List.mem_cons.mp hm with rfl | hm
            · have : c = ⟨ox + j', hlt⟩ := Fin.ext hc
              exact .inl (.inr (this ▸ hp))
            · refine .inr ⟨j', hm, c, hb', hc, ?_⟩
              rw [plot_pixel, if_neg]
              · exact hp
              · rintro ⟨-, rfl⟩
                have : j = j' := by simp at hc; omega
                exact hj (this ▸ hm)
    · have e : drawColumn bits r ox cv j = cv := by
        unfold drawColumn
        split
        · rw [dif_neg]; rename_i hb; exact fun h => hd ⟨hb, h⟩
        · rfl
      have hno : ∀ c' : Fin screenW, ¬ (spriteBit bits j = true ∧ c'.val = ox + j) :=
        fun c' h => hd ⟨h.1, h.2 ▸ c'.isLt⟩
      rw [e] at ihp ihc
      constructor
      · intro r' c'
        rw [List.foldl_cons, e, ihp r' c']
        have : (∃ j' ∈ j :: cols, spriteBit bits j' = true ∧ c'.val = ox + j') ↔
            ∃ j' ∈ cols, spriteBit bits j' = true ∧ c'.val = ox + j' := by
          constructor
          · rintro ⟨j', hm, h⟩
            rcases List.mem_cons.mp hm with rfl | hm
            · exact absurd h (hno c')
            · exact ⟨j', hm, h⟩
          · rintro ⟨j', hm, h⟩; exact ⟨j', List.mem_cons_of_mem _ hm, h⟩
        simp only [this]
      · rw [List.foldl_cons, e, ihc]
        constructor
        · rintro (h | ⟨j', hm, h⟩)
          · exact .inl h
          · exact .inr ⟨j', List.mem_cons_of_mem _ hm, h⟩
        · rintro (h | ⟨j', hm, c, h1, h2, h3⟩)
          · exact .inl h
          · rcases List.mem_cons.mp hm with rfl | hm
            · exact absurd ⟨h1, h2⟩ (hno c)
            · exact .inr ⟨j', hm, c, h1, h2, h3⟩

theorem mem_spriteColumns (j : Nat) : j ∈ spriteColumns ↔ j < 8 := by
  simp [spriteColumns]; omega

open Classical in
theorem drawRow_spec (bits : Byte) (r : Fin screenH) (ox : Nat) (cv : Canvas) :
    (∀ r' c', gridPixel (drawRow bits r ox cv).grid r' c' =
      if r' = r ∧ ∃ j < 8, spriteBit bits j = true ∧ c'.val = ox + j then togglePixel (gridPixel cv.grid r' c')
      else gridPixel cv.grid r' c') ∧
    ((drawRow bits r ox cv).collision = true ↔ cv.collision = true ∨
      ∃ j < 8, ∃ c : Fin screenW, spriteBit bits j = true ∧ c.val = ox + j ∧ gridPixel cv.grid r c ≠ 0#8) := by
  have h := drawColumns_spec bits r ox spriteColumns (by decide) cv
  simp only [mem_spriteColumns] at h
  refine ⟨fun r' c' => ?_, h.2⟩
  refine (h.1 r' c').trans ?_
  congr

/-- A pixel lies under sprite row `k` of a list whose first row has number `r0`. -/
def rowCovers (base : Fin screenH) (ox r0 : Nat) (rows : List Byte) (r : Fin screenH) (c : Fin screenW) : Prop :=
  ∃ k j : Nat, ∃ bits : Byte, rows[k]? = some bits ∧ j < 8 ∧ spriteBit bits j = true ∧
    r.val + (r0 + k) = base.val ∧ c.val = ox + j

theorem rowCovers_cons (base : Fin screenH) (ox r0 : Nat) (bits : Byte) (rows : List Byte) (r : Fin screenH)
    (c : Fin screenW) : rowCovers base ox r0 (bits :: rows) r c ↔
      (r.val + r0 = base.val ∧ ∃ j < 8, spriteBit bits j = true ∧ c.val = ox + j) ∨ rowCovers base ox (r0 + 1) rows r c := by
  constructor
  · rintro ⟨k, j, b, hk, hj, hb, hr, hc⟩
    cases k with
    | zero => simp at hk; subst hk; exact .inl ⟨by omega, j, hj, hb, hc⟩
    | succ k => exact .inr ⟨k, j, b, by simpa using hk, hj, hb, by omega, hc⟩
  · rintro (⟨hr, j, hj, hb, hc⟩ | ⟨k, j, b, hk, hj, hb, hr, hc⟩)
    · exact ⟨0, j, bits, by simp, hj, hb, by omega, hc⟩
    · exact ⟨k + 1, j, b, by simpa using hk, hj, hb, by omega, hc⟩

open Classical in
/-- The rows of a sprite: each covered pixel is toggled once, and a collision is a covered pixel that was on. -/
theorem drawRows_spec (base : Fin screenH) (ox : Nat) : ∀ (rows : List Byte) (r0 : Nat) (cv : Canvas),
    (∀ r c, gridPixel (drawRows base ox r0 cv rows).grid r c =
      if rowCovers base ox r0 rows r c then togglePixel (gridPixel cv.grid r c) else gridPixel cv.grid r c) ∧
    ((drawRows base ox r0 cv rows).collision = true ↔ cv.collision = true ∨
      ∃ r c, rowCovers base ox r0 rows r c ∧ gridPixel cv.grid r c ≠ 0#8) := by
  intro rows
  induction rows with
  | nil =>
    intro r0 cv
    have h : ∀ r c, ¬ rowCovers base ox r0 [] r c := by rintro r c ⟨k, j, b, hk, -⟩; simp at hk
    simp [drawRows, h]
  | cons bits rows ih =>
    intro r0 cv
    have hlt : ∀ r c, rowCovers base ox (r0 + 1) rows r c → r.val + r0 < base.val := by
      rintro r c ⟨k, j, b, -, -, -, hr, -⟩; omega
    rw [drawRows]
    by_cases hle : r0 ≤ base.val
    · rw [if_pos hle]
      obtain ⟨ihp, ihc⟩ := ih (r0 + 1)
        (drawRow bits ⟨base.val - r0, Nat.lt_of_le_of_lt (Nat.sub_le _ _) base.isLt⟩ ox cv)
      obtain ⟨rp, rc⟩ := drawRow_spec bits ⟨base.val - r0, Nat.lt_of_le_of_lt (Nat.sub_le _ _) base.isLt⟩ ox cv
      have hrow : ∀ r : Fin screenH, r = ⟨base.val - r0, Nat.lt_of_le_of_lt (Nat.sub_le _ _) base.isLt⟩ ↔
          r.val + r0 = base.val := by
        intro r; rw [Fin.ext_iff]; simp only; omega
      constructor
      · intro r c
        rw [ihp r c, rp r c]
        simp only [rowCovers_cons, hrow]
        by_cases h1 : rowCovers base ox (r0 + 1) rows r c
        · have := hlt r c h1
          rw [if_pos h1, if_neg (fun h => absurd h.1 (by omega)), if_pos (Or.inr h1)]
        · rw [if_neg h1]
          by_cases h2 : r.val + r0 = base.val ∧ ∃ j < 8, spriteBit bits j = true ∧ c.val = ox + j
          · rw [if_pos h2, if_pos (Or.inl h2)]
          · rw [if_neg h2, if_neg (fun h => h.elim h2 h1)]
      · rw [ihc, rc]
        constructor
        · rintro ((h | ⟨j, hj, c, hb, hc, hp⟩) | ⟨r, c, h, hp⟩)
          · exact .inl h
          · refine .inr ⟨_, c, (rowCovers_cons ..).mpr (.inl ⟨(hrow _).mp rfl, j, hj, hb, hc⟩), hp⟩
          · rw [rp, if_neg] at hp
            · exact .inr ⟨r, c, (rowCovers_cons ..).mpr (.inr h), hp⟩
            · rw [hrow]; have := hlt r c h; omega
        · rintro (h | ⟨r, c, h, hp⟩)
          · exact .inl (.inl h)
          · rcases (rowCovers_cons ..).mp h with ⟨hr, j, hj, hb, hc⟩ | h
            · have := (hrow r).mpr hr
              exact .inl (.inr ⟨j, hj, c, hb, hc, this ▸ hp⟩)
            · refine .inr ⟨r, c, h, ?_⟩
              rw [rp, if_neg]
              · exact hp
              · rw [hrow]; have := hlt r c h; omega
    · rw [if_neg hle]
      obtain ⟨ihp, ihc⟩ := ih (r0 + 1) cv
      have hsame : ∀ r c, rowCovers base ox r0 (bits :: rows) r c ↔ rowCovers base ox (r0 + 1) rows r c := by
        intro r c
        rw [rowCovers_cons]
        exact ⟨fun h => h.elim (fun h => absurd h.1 (by omega)) id, .inr⟩
      simp only [hsame]
      exact ⟨ihp, ihc⟩

/-- Sprite rows counted from the origin's stored row are sprite rows counted from its device row. -/
theorem rowCovers_iff_spriteCovers (vx vy : Byte) (rows : List Byte) (r : Fin screenH) (c : Fin screenW) :
    rowCovers (originRow vy) (originColumn vx) 0 rows r c ↔ spriteCovers vx vy rows r c := by
  have hr := r.isLt
  have hv : vy.toNat % 32 < 32 := Nat.mod_lt _ (by decide)
  unfold rowCovers spriteCovers originRow originColumn
  simp only [screenH, screenW] at *
  constructor
  · rintro ⟨k, j, b, hk, hj, hb, h, hc⟩
    exact ⟨k, j, b, hk, hj, hb, by omega, hc⟩
  · rintro ⟨k, j, b, hk, hj, hb, h, hc⟩
    exact ⟨k, j, b, hk, hj, hb, by omega, hc⟩

open Classical in
/-- A draw: every pixel the sprite covers is toggled, every other pixel is unchanged, and the collision bit says whether a
covered pixel was on (44_display.md R147). -/
theorem drawGrid_spec (g : Grid) (vx vy : Byte) (rows : List Byte) :
    (∀ r c, gridPixel (drawGrid g vx vy rows).grid r c =
      if spriteCovers vx vy rows r c then togglePixel (gridPixel g r c) else gridPixel g r c) ∧
    ((drawGrid g vx vy rows).collision = true ↔ ∃ r c, spriteCovers vx vy rows r c ∧ gridPixel g r c ≠ 0#8) := by
  obtain ⟨hp, hc⟩ := drawRows_spec (originRow vy) (originColumn vx) rows 0 ⟨g, false⟩
  simp only [rowCovers_iff_spriteCovers] at hp hc
  exact ⟨hp, hc.trans (by simp)⟩

/-- A draw keeps every pixel legal. -/
theorem drawGrid_legal {g : Grid} (h : ∀ r c, legalPixel (gridPixel g r c)) (vx vy : Byte) (rows : List Byte)
    (r : Fin screenH) (c : Fin screenW) : legalPixel (gridPixel (drawGrid g vx vy rows).grid r c) := by
  classical
  rw [(drawGrid_spec g vx vy rows).1 r c]
  split
  · exact togglePixel_legal _
  · exact h r c

/-! ## Controller operations -/

@[simp] theorem andThen_next {α β : Type} (a : α) (k : α → Result β) : andThen (.next a) k = k a := rfl

theorem andThen_eq_next {α β : Type} {r : Result α} {k : α → Result β} {b : β} (h : andThen r k = .next b) :
    ∃ a, r = .next a ∧ k a = .next b := by
  cases r with
  | next a => exact ⟨a, rfl, h⟩
  | fault f => cases f
  | refused f => cases h

@[simp] theorem clear_slotSelector (k : Slot) (s : State) : clear (slotSelector k) s = .next (s.setSlot k blankGrid) := by
  cases k <;> rfl

@[simp] theorem draw_inactive (vx vy : Byte) (rows : List Byte) (s : State) : draw .inactive vx vy rows s =
    .next (s.setSlot (otherSlot s.cur) (drawGrid (s.slot (otherSlot s.cur)) vx vy rows).grid,
      (drawGrid (s.slot (otherSlot s.cur)) vx vy rows).collision) := rfl

end Sys2Proof.Machine
end

