-- ==== Sys2Proof/Laws/Memory.lean ====
section
/-! SUPPORT. Memory keeps its canonical form, and a read after a write gives the written byte and every other byte as before. -/

namespace Sys2Proof.Machine

namespace Memory

theorem wfFrom_mono {lo lo' : Nat} (h : lo' ≤ lo) : ∀ {m : Memory}, wfFrom lo m = true → wfFrom lo' m = true
  | [], _ => rfl
  | (a, u) :: m, hm => by
    simp only [wfFrom, Bool.and_eq_true, decide_eq_true_eq] at hm ⊢
    exact ⟨⟨⟨by omega, hm.1.1.2⟩, hm.1.2⟩, hm.2⟩

/-- An address below every listed one reads as its reset contents. -/
theorem lookup_below {lo a : Nat} (h : a < lo) : ∀ {m : Memory}, wfFrom lo m = true → lookup m a = initial a
  | [], _ => rfl
  | (b, u) :: m, hm => by
    simp only [wfFrom, Bool.and_eq_true, decide_eq_true_eq] at hm
    have hb : a ≠ b := by omega
    rw [lookup, if_neg hb]
    exact lookup_below (lo := b + 1) (by omega) hm.2

/-- A store keeps the canonical form. -/
theorem store_wfFrom {a : Nat} (ha : a < memSize) (u : Byte) : ∀ {lo : Nat} {m : Memory}, lo ≤ a → wfFrom lo m = true →
    wfFrom lo (store m a u) = true
  | lo, [], hlo, _ => by
    rw [store]
    split
    · rfl
    · rename_i hu; simp [wfFrom, hlo, ha, hu]
  | lo, (b, w) :: m, hlo, hm => by
    have hm' := hm
    simp only [wfFrom, Bool.and_eq_true, decide_eq_true_eq] at hm
    rw [store]
    split
    · split
      · exact hm'
      · rename_i hab hu
        simp only [wfFrom, Bool.and_eq_true, decide_eq_true_eq, bne_iff_ne, ne_eq]
        simp only [bne_iff_ne, ne_eq] at hm
        exact ⟨⟨⟨hlo, ha⟩, hu⟩, ⟨⟨by omega, hm.1.1.2⟩, hm.1.2⟩, hm.2⟩
    · split
      · rename_i hab; subst hab
        split
        · exact wfFrom_mono (by omega) hm.2
        · rename_i hu
          simp only [wfFrom, Bool.and_eq_true, decide_eq_true_eq, bne_iff_ne, ne_eq]
          exact ⟨⟨⟨hlo, ha⟩, hu⟩, hm.2⟩
      · simp only [wfFrom, Bool.and_eq_true, decide_eq_true_eq]
        exact ⟨hm.1, store_wfFrom ha u (by omega) hm.2⟩

theorem store_wf {m : Memory} {a : Nat} (ha : a < memSize) (u : Byte) (hm : m.wf = true) : (m.store a u).wf = true :=
  store_wfFrom ha u (Nat.zero_le a) hm

/-- A read after a store. -/
theorem lookup_store (a b : Nat) (u : Byte) : ∀ {lo : Nat} {m : Memory}, wfFrom lo m = true →
    lookup (store m a u) b = if b = a then u else lookup m b
  | _, [], _ => by
    rw [store]
    split
    · rename_i hu; by_cases h : b = a
      · subst h; simp [lookup, hu]
      · simp [h]
    · simp [lookup]
  | lo, (c, w) :: m, hm => by
    have hm' := hm
    simp only [wfFrom, Bool.and_eq_true, decide_eq_true_eq] at hm
    rw [store]
    split
    · rename_i hac
      split
      · rename_i hu
        by_cases h : b = a
        · subst h
          rw [if_pos rfl, lookup_below (lo := c) hac (m := (c, w) :: m), hu]
          simp only [wfFrom, Bool.and_eq_true, decide_eq_true_eq, Nat.le_refl, true_and]
          exact ⟨⟨hm.1.1.2, hm.1.2⟩, hm.2⟩
        · rw [if_neg h]
      · simp only [lookup]
    · split
      · rename_i hac; subst hac
        split
        · rename_i hu
          by_cases h : b = a
          · subst h; rw [if_pos rfl, lookup_below (lo := b + 1) (by omega) hm.2, hu]
          · simp only [lookup, if_neg h]
        · simp only [lookup]
          by_cases h : b = a <;> simp [h]
      · rename_i h1 h2
        simp only [lookup]
        by_cases h : b = c
        · subst h; simp [Ne.symm h2]
        · rw [if_neg h, if_neg h]
          exact lookup_store a b u hm.2

/-- Storing bytes that fit in memory keeps the canonical form. -/
theorem storeBytes_wf (us : List Byte) : ∀ {m : Memory} {a : Nat}, a + us.length ≤ memSize → m.wf = true →
    (storeBytes m a us).wf = true := by
  induction us with
  | nil => intro m a _ hm; exact hm
  | cons u us ih =>
    intro m a h hm
    simp only [List.length_cons] at h
    exact ih (by omega) (store_wf (by omega) u hm)

/-- A read after storing bytes that fit in memory. -/
theorem lookup_storeBytes (us : List Byte) : ∀ {m : Memory} {a : Nat} (b : Nat), a + us.length ≤ memSize → m.wf = true →
    lookup (storeBytes m a us) b =
      if h : a ≤ b ∧ b < a + us.length then us[b - a]'(by omega) else lookup m b := by
  induction us with
  | nil => intro m a b _ _; simp only [storeBytes, List.length_nil]; rw [dif_neg (by omega)]
  | cons u us ih =>
    intro m a b h hm
    simp only [List.length_cons] at h
    rw [storeBytes, ih b (by omega) (store_wf (by omega) u hm)]
    by_cases h1 : a + 1 ≤ b ∧ b < a + 1 + us.length
    · have h2 : a ≤ b ∧ b < a + (u :: us).length := by simp only [List.length_cons]; omega
      rw [dif_pos h1, dif_pos h2]
      have e : b - a = (b - (a + 1)) + 1 := by omega
      simp only [e, List.getElem_cons_succ]
    · rw [dif_neg h1, lookup_store a b u (lo := 0) hm]
      by_cases h3 : b = a
      · subst h3
        have h2 : b ≤ b ∧ b < b + (u :: us).length := by simp only [List.length_cons]; omega
        rw [dif_pos h2, if_pos rfl]
        simp
      · have h2 : ¬ (a ≤ b ∧ b < a + (u :: us).length) := by simp only [List.length_cons]; omega
        rw [dif_neg h2, if_neg h3]

@[simp] theorem lookupBytes_length (m : Memory) (n : Nat) : ∀ a, (lookupBytes m a n).length = n := by
  induction n with
  | zero => intro a; rfl
  | succ n ih => intro a; simp [lookupBytes, ih]

theorem lookupBytes_getElem (m : Memory) (n : Nat) : ∀ (a k : Nat) (h : k < (lookupBytes m a n).length),
    (lookupBytes m a n)[k] = lookup m (a + k) := by
  induction n with
  | zero => intro a k h; simp at h
  | succ n ih =>
    intro a k h
    cases k with
    | zero => rfl
    | succ k =>
      simp only [lookupBytes, List.getElem_cons_succ]
      rw [ih]
      congr 1
      omega

end Memory

variable (s : State)

@[simp] theorem readByte_setReg (r : Nibble) (b : Byte) (a : Nat) : (s.setReg r b).readByte a = s.readByte a := rfl
@[simp] theorem readByte_fetched (a : Nat) : s.fetched.readByte a = s.readByte a := rfl

/-- Reads depend on `mem` alone. -/
theorem readByte_of_mem {s t : State} (h : t.mem = s.mem) (a : Nat) : t.readByte a = s.readByte a := by
  simp only [State.readByte, h]

theorem readByte_eq {a : Nat} (h : a < memSize) : s.readByte a = some (s.mem.lookup a) := by
  simp [State.readByte, h]

theorem readByte_none {a : Nat} (h : memSize ≤ a) : s.readByte a = none := by
  simp [State.readByte, Nat.not_lt.mpr h]

/-- What the checked read of a range answers (20_memory.md R52). -/
theorem readBytes_cases (a n : Nat) :
    (n = 0 ∨ a + n ≤ memSize) ∧ s.readBytes a n = some (s.mem.lookupBytes a n) ∨
    (n ≠ 0 ∧ memSize < a + n) ∧ s.readBytes a n = none := by
  by_cases h : n = 0 ∨ a + n ≤ memSize
  · exact .inl ⟨h, by rw [State.readBytes, if_pos h]⟩
  · exact .inr ⟨by omega, by rw [State.readBytes, if_neg h]⟩

end Sys2Proof.Machine
end

