-- ==== Sys2Proof/Laws/PerInstr.lean ====
section
/-! SUPPORT. Statements for all instructions, one lemma per constructor. Canonical: the encoder leaves every don't-care bit at 0
(30_encoding.md rule R84). -/

namespace Sys2Proof.Laws.Canonical

/-- The word of a well-formed instruction has its don't-care bits at 0. -/
def Statement (i : Instr) : Prop := i.wellFormed = true → canonicalWord (encode i) = encode i

/-- A class with don't-care bits (30_encoding.md R80). -/
def loose (op : Nibble) : Bool := op == 0x0#4 || op == 0x5#4 || op == 0x9#4

/-- A word of a class without don't-care bits is canonical. -/
theorem of_op {w : Half} {op : Nibble} (h : opField w = op) (hop : loose op = false) : canonicalWord w = w := by
  subst h
  simp only [loose, Bool.or_eq_false_iff, beq_eq_false_iff_ne] at hop
  rw [canonicalWord, if_neg (fun h => hop.1.1 h.1), if_neg (fun h => h.elim hop.1.2 hop.2)]

/-- A word whose low nibble is 0 keeps it. -/
theorem mask_low_nibble (op x y : Nibble) : wordXYN op x y 0x0#4 &&& 0xFFF0#16 = wordXYN op x y 0x0#4 := by
  have h : ∀ u : BitVec 12, (u ++ 0x0#4) &&& (BitVec.allOnes 12 ++ 0x0#4) = u ++ 0x0#4 := fun u => by
    rw [BitVec.and_append, BitVec.and_allOnes, BitVec.and_self]
  exact h ((op ++ x) ++ y)

theorem nop : Statement .nop := fun _ => by decide
theorem cls : Statement .cls := fun _ => by decide
theorem jp (nnn : Addr12) : Statement (.jp nnn) := fun _ => of_op (opField_wordNnn _ _) rfl
theorem seImm (x : Nibble) (nn : Byte) : Statement (.seImm x nn) :=
  fun _ => of_op (opField_wordXNn _ _ _) rfl
theorem sneImm (x : Nibble) (nn : Byte) : Statement (.sneImm x nn) :=
  fun _ => of_op (opField_wordXNn _ _ _) rfl
theorem seReg (x y : Nibble) : Statement (.seReg x y) := fun _ => by
  rw [canonicalWord, if_neg (by simp [encode]), if_pos (by simp [encode])]; exact mask_low_nibble _ x y
theorem ldImm (x : Nibble) (nn : Byte) : Statement (.ldImm x nn) :=
  fun _ => of_op (opField_wordXNn _ _ _) rfl
theorem addImm (x : Nibble) (nn : Byte) : Statement (.addImm x nn) :=
  fun _ => of_op (opField_wordXNn _ _ _) rfl
theorem ldReg (x y : Nibble) : Statement (.ldReg x y) := fun _ => of_op (opField_wordXYN _ _ _ _) rfl
theorem orReg (x y : Nibble) : Statement (.orReg x y) := fun _ => of_op (opField_wordXYN _ _ _ _) rfl
theorem andReg (x y : Nibble) : Statement (.andReg x y) :=
  fun _ => of_op (opField_wordXYN _ _ _ _) rfl
theorem xorReg (x y : Nibble) : Statement (.xorReg x y) :=
  fun _ => of_op (opField_wordXYN _ _ _ _) rfl
theorem addReg (x y : Nibble) : Statement (.addReg x y) :=
  fun _ => of_op (opField_wordXYN _ _ _ _) rfl
theorem sub (x y : Nibble) : Statement (.sub x y) := fun _ => of_op (opField_wordXYN _ _ _ _) rfl
theorem shr (x y : Nibble) : Statement (.shr x y) := fun _ => of_op (opField_wordXYN _ _ _ _) rfl
theorem subn (x y : Nibble) : Statement (.subn x y) := fun _ => of_op (opField_wordXYN _ _ _ _) rfl
theorem shl (x y : Nibble) : Statement (.shl x y) := fun _ => of_op (opField_wordXYN _ _ _ _) rfl
theorem sneReg (x y : Nibble) : Statement (.sneReg x y) := fun _ => by
  rw [canonicalWord, if_neg (by simp [encode]), if_pos (by simp [encode])]; exact mask_low_nibble _ x y
theorem ldI (nnn : Addr12) : Statement (.ldI nnn) := fun _ => of_op (opField_wordNnn _ _) rfl
theorem rnd (x : Nibble) (nn : Byte) : Statement (.rnd x nn) :=
  fun _ => of_op (opField_wordXNn _ _ _) rfl
theorem drw (x y n : Nibble) : Statement (.drw x y n) := fun _ => of_op (opField_wordXYN _ _ _ _) rfl
theorem addI (x : Nibble) : Statement (.addI x) := fun _ => of_op (opField_wordXNn _ _ _) rfl
theorem ldVxI (x : Nibble) : Statement (.ldVxI x) := fun _ => of_op (opField_wordXNn _ _ _) rfl
theorem unknown (w : Half) : Statement (.unknown w) := fun h => by
  have op_toNat : (opField w).toNat = w.toNat / 0x1000 := by
    have := w.isLt
    simp only [opField, BitVec.extractLsb'_toNat, Nat.shiftRight_eq_div_pow]
    omega
  have nn_toNat : (nnField w).toNat = w.toNat % 0x100 := by
    simp [nnField, BitVec.extractLsb'_toNat]
  simp only [Instr.wellFormed, inUnknownSpace, ← op_toNat, ← nn_toNat] at h
  show canonicalWord w = w
  rw [canonicalWord, if_neg, if_neg]
  · rintro (e | e) <;> rw [e] at h <;> simp at h
  · rintro ⟨e, e'⟩
    rw [e, e'] at h
    simp at h

end Sys2Proof.Laws.Canonical
end

