-- ==== Sys2Proof/Laws/Registers.lean ====
section
/-! SUPPORT. What reading a register answers after each update. -/

namespace Sys2Proof.Machine

variable (s : State)

/-- A register after a write: the written byte in the written register, the old byte in every other. -/
theorem reg_setReg (r q : Nibble) (b : Byte) : (s.setReg r b).reg q = if q = r then b else s.reg q := by
  have h : r.toNat = q.toNat ↔ q = r := ⟨fun h => (BitVec.eq_of_toNat_eq h).symm, fun h => by rw [h]⟩
  simp only [State.reg, State.setReg, Vector.getElem_set, h]

@[simp] theorem reg_setReg_self (r : Nibble) (b : Byte) : (s.setReg r b).reg r = b := by simp [reg_setReg]

theorem reg_setReg_of_ne {r q : Nibble} (b : Byte) (h : q ≠ r) : (s.setReg r b).reg q = s.reg q := by
  simp [reg_setReg, h]

/-- Registers depend on `v` alone. -/
theorem reg_of_v {s t : State} (h : t.v = s.v) (q : Nibble) : t.reg q = s.reg q := by simp only [State.reg, h]

@[simp] theorem setPc_reg (a : Half) (q : Nibble) : (s.setPc a).reg q = s.reg q := rfl
@[simp] theorem setIdx_reg (a : Half) (q : Nibble) : (s.setIdx a).reg q = s.reg q := rfl
@[simp] theorem raise_reg (c : Cause) (a : Half) (q : Nibble) : (s.raise c a).reg q = s.reg q := rfl
@[simp] theorem emit_reg (o : Output) (q : Nibble) : (s.emit o).reg q = s.reg q := rfl
@[simp] theorem takeFree_reg (q : Nibble) : s.takeFree.reg q = s.reg q := rfl
@[simp] theorem fetched_reg (q : Nibble) : s.fetched.reg q = s.reg q := rfl
@[simp] theorem skipIf_reg (c : Bool) (q : Nibble) : (s.skipIf c).reg q = s.reg q := by cases c <;> rfl
@[simp] theorem setSlot_reg (k : Slot) (g : Grid) (q : Nibble) : (s.setSlot k g).reg q = s.reg q := by cases k <;> rfl

/-- DXYN's write to V[F] (44_display.md R150). -/
theorem setDrawFlag_reg (c d : Bool) (q : Nibble) : (s.setDrawFlag c d).reg q =
    if q = flagReg then (if d then 1#8 else if c then 0#8 else s.reg flagReg) else s.reg q := by
  cases d
  · cases c
    · by_cases h : q = flagReg
      · rw [if_pos h, h]; rfl
      · rw [if_neg h]; rfl
    · exact reg_setReg s flagReg q 0#8
  · exact reg_setReg s flagReg q 1#8

/-- A state written as itself with another register file: every register update has this form. -/
theorem setReg_eq (r : Nibble) (b : Byte) : s.setReg r b = { s with v := (s.setReg r b).v } := rfl

/-- What FX65's loop leaves in a register (43_index_memory.md R132). -/
theorem loadRegsFrom_getElem (bs : List Byte) : ∀ (v : Vector Byte 16) (i k : Nat) (hk : k < 16),
    (loadRegsFrom v i bs)[k] = if h : i ≤ k ∧ k < i + bs.length then bs[k - i]'(by omega) else v[k] := by
  induction bs with
  | nil => intro v i k hk; simp only [loadRegsFrom, List.length_nil]; rw [dif_neg (by omega)]
  | cons b bs ih =>
    intro v i k hk
    rw [loadRegsFrom, ih]
    by_cases h1 : i + 1 ≤ k ∧ k < i + 1 + bs.length
    · have h2 : i ≤ k ∧ k < i + (b :: bs).length := by simp only [List.length_cons]; omega
      rw [dif_pos h1, dif_pos h2]
      have e : k - i = (k - (i + 1)) + 1 := by omega
      simp only [e, List.getElem_cons_succ]
    · rw [dif_neg h1]
      by_cases h3 : k = i
      · subst h3
        have h2 : k ≤ k ∧ k < k + (b :: bs).length := by simp only [List.length_cons]; omega
        rw [dif_pos h2]
        simp [hk]
      · have h2 : ¬ (i ≤ k ∧ k < i + (b :: bs).length) := by simp only [List.length_cons]; omega
        rw [dif_neg h2]
        split
        · rw [Vector.getElem_set]; simp only [Ne.symm h3, if_false]
        · rfl

end Sys2Proof.Machine
end

