-- ==== Sys2Proof/Laws/Ports.lean ====
section
/-! SUPPORT. What a transaction of another agent leaves alone, and the display instructions as one equation each. -/

namespace Sys2Proof.Machine

/-- What no transaction on shared state touches: everything but the counters, `cur` and the outputs (20_memory.md R62, R63). -/
structure SharedFrame (s t : State) : Prop where
  v : t.v = s.v
  idx : t.idx = s.idx
  pc : t.pc = s.pc
  stack : t.stack = s.stack
  sp : t.sp = s.sp
  status : t.status = s.status
  fb0 : t.fb0 = s.fb0
  fb1 : t.fb1 = s.fb1
  mem : t.mem = s.mem
  boot : t.boot = s.boot
  driverStopped : t.driverStopped = s.driverStopped
  tickStopped : t.tickStopped = s.tickStopped
  free : t.free = s.free
  agenda : t.agenda = s.agenda
  between : t.between = s.between
  outside : t.outside = s.outside

theorem SharedFrame.refl (s : State) : SharedFrame s s :=
  ⟨rfl, rfl, rfl, rfl, rfl, rfl, rfl, rfl, rfl, rfl, rfl, rfl, rfl, rfl, rfl, rfl⟩

theorem SharedFrame.trans {s t u : State} (h : SharedFrame s t) (k : SharedFrame t u) : SharedFrame s u :=
  ⟨k.v.trans h.v, k.idx.trans h.idx, k.pc.trans h.pc, k.stack.trans h.stack, k.sp.trans h.sp, k.status.trans h.status,
    k.fb0.trans h.fb0, k.fb1.trans h.fb1, k.mem.trans h.mem, k.boot.trans h.boot, k.driverStopped.trans h.driverStopped,
    k.tickStopped.trans h.tickStopped, k.free.trans h.free, k.agenda.trans h.agenda, k.between.trans h.between,
    k.outside.trans h.outside⟩

theorem tick_frame (s : State) : SharedFrame s (tick s) :=
  ⟨rfl, rfl, rfl, rfl, rfl, rfl, rfl, rfl, rfl, rfl, rfl, rfl, rfl, rfl, rfl, rfl⟩

theorem emit_frame (s : State) (o : Output) : SharedFrame s (s.emit o) :=
  ⟨rfl, rfl, rfl, rfl, rfl, rfl, rfl, rfl, rfl, rfl, rfl, rfl, rfl, rfl, rfl, rfl⟩

theorem swap_frame (s : State) : SharedFrame s (swap s) :=
  ⟨rfl, rfl, rfl, rfl, rfl, rfl, rfl, rfl, rfl, rfl, rfl, rfl, rfl, rfl, rfl, rfl⟩

theorem writeTimer_frame (s : State) (which : Timer) (u : Byte) : SharedFrame s (writeTimer which u s) := by
  constructor <;> simp

theorem performShared_frame (s : State) (op : SharedOp) : SharedFrame s (performShared s op) := by
  cases op with
  | tick =>
    by_cases h : s.tickStopped = true
    · simp only [performShared, h, if_true]; exact SharedFrame.refl s
    · simp only [performShared, h]; exact tick_frame s
  | readTimers => exact emit_frame s _
  | writeTimer which u => exact writeTimer_frame s which u
  | readCurrent => exact emit_frame s _
  | swap => exact swap_frame s
  | readStatus => exact emit_frame s _

theorem performAll_frame (ops : List SharedOp) : ∀ s, SharedFrame s (performAll s ops) := by
  induction ops with
  | nil => intro s; exact SharedFrame.refl s
  | cons op ops ih => intro s; exact (performShared_frame s op).trans (ih (performShared s op))

theorem SharedFrame.slot {s t : State} (h : SharedFrame s t) (k : Slot) : t.slot k = s.slot k := by
  cases k
  · exact h.fb0
  · exact h.fb1

/-- A tick takes 1 from a counter above 0 and leaves 0 alone (60_exceptions.md R169). -/
theorem countDown_toNat (t : Byte) : (countDown t).toNat = t.toNat - 1 := by
  unfold countDown
  have := t.isLt
  split
  · rw [BitVec.toNat_sub]; simp; omega
  · omega

/-- CLS for a given order and given transactions between its clears. -/
theorem execClsWith_eq (first : Slot) (ops : List SharedOp) (s : State) : execClsWith first ops s =
    .next (State.setSlot (performAll (s.setSlot first blankGrid) ops) (otherSlot first) blankGrid) := by
  simp [execClsWith]

/-- After a CLS both slots are blank, whatever fell between (70_reset_and_hazards.md R194). -/
theorem execClsWith_slot (first : Slot) (ops : List SharedOp) (s t : State) (h : execClsWith first ops s = .next t)
    (k : Slot) : t.slot k = blankGrid := by
  rw [execClsWith_eq] at h
  cases h
  rw [setSlot_slot]
  split
  · rfl
  · rename_i hk
    have e : k = first := by cases k <;> cases first <;> simp_all [otherSlot]
    have f := (performAll_frame ops (s.setSlot first blankGrid)).slot k
    rw [e, setSlot_slot_self] at f
    rw [e]
    exact f

/-- With nothing between them the two clears give one state, whichever comes first. -/
theorem execClsWith_quiet (first : Slot) (s : State) :
    execClsWith first [] s = .next { s with fb0 := blankGrid, fb1 := blankGrid } := by
  rw [execClsWith_eq]
  cases first <;> rfl

/-- CLS: the second clear of the state that the transactions between leave. -/
theorem execCls_eq (s : State) : execCls s = .next (State.setSlot
    (performAll (State.setSlot { s with between := s.between.tail, free := s.free + 1 } (clearedFirst s) blankGrid) s.inside)
    (otherSlot (clearedFirst s)) blankGrid) := execClsWith_eq _ _ _

/-- CLS with nothing between its clears. -/
theorem execCls_quiet (s : State) (h : s.inside = []) : execCls s =
    .next { s with fb0 := blankGrid, fb1 := blankGrid, between := s.between.tail, free := s.free + 1 } := by
  rw [execCls, h, execClsWith_quiet]

/-- A sequence of transactions sends one output for each read (70_reset_and_hazards.md R184). -/
theorem performAll_outputs (ops : List SharedOp) : ∀ s : State, ∃ sent, (performAll s ops).outputs = sent ++ s.outputs ∧
    sent.length = ops.countP (·.answers) := by
  induction ops with
  | nil => intro s; exact ⟨[], rfl, rfl⟩
  | cons op ops ih =>
    intro s
    obtain ⟨sent, h, hl⟩ := ih (performShared s op)
    have e : (performAll s (op :: ops)).outputs = sent ++ (performShared s op).outputs := h
    by_cases ha : op.answers = true
    · obtain ⟨o, ho⟩ : ∃ o, (performShared s op).outputs = o :: s.outputs := by
        cases op <;> first | exact ⟨_, rfl⟩ | cases ha
      exact ⟨sent ++ [o], by simp [e, ho], by simp [hl, ha]⟩
    · have ho : (performShared s op).outputs = s.outputs := by
        cases op with
        | tick => simp only [performShared]; split <;> rfl
        | writeTimer w u => simp [performShared]
        | swap => rfl
        | _ => exact absurd rfl ha
      exact ⟨sent, by rw [e, ho], by simp [hl, ha]⟩

/-- A sequence of transactions swaps as often as it holds a swap (44_display.md R144). -/
theorem performAll_cur (ops : List SharedOp) : ∀ s : State, (performAll s ops).cur = currentAfter s.cur ops := by
  induction ops with
  | nil => intro s; rfl
  | cons op ops ih =>
    intro s
    have h : (performAll s (op :: ops)).cur = currentAfter (performShared s op).cur ops := ih (performShared s op)
    rw [h]
    by_cases hs : op = .swap
    · subst hs
      simp only [currentAfter, List.count_cons_self, performShared, swap]
      have : ∀ n : Nat, (n + 1) % 2 = 0 ↔ ¬ n % 2 = 0 := by omega
      simp only [this]
      split <;> simp_all
    · have hc : (op :: ops).count .swap = ops.count .swap := List.count_cons_of_ne hs
      have hcur : (performShared s op).cur = s.cur := by
        cases op with
        | swap => exact absurd rfl hs
        | tick => simp only [performShared]; split <;> rfl
        | writeTimer w u => simp [performShared]
        | _ => rfl
      rw [currentAfter, currentAfter, hc, hcur]

/-- DRW for a given parameter: a draw, or the fault. -/
theorem execDrwWith_cases (c : Bool) (x y n : Nibble) (s : State) :
    (n.toNat = 0 ∨ s.idx.toNat + n.toNat ≤ memSize) ∧ execDrwWith c x y n s =
      (let cv := drawGrid (s.slot (otherSlot s.cur)) (s.reg x) (s.reg y) (s.mem.lookupBytes s.idx.toNat n.toNat)
       .next ((s.setSlot (otherSlot s.cur) cv.grid).setDrawFlag c cv.collision)) ∨
    (n.toNat ≠ 0 ∧ memSize < s.idx.toNat + n.toNat) ∧ execDrwWith c x y n s = .next (s.raise .spriteOob s.idx) := by
  obtain ⟨h, hr⟩ | ⟨h, hr⟩ := readBytes_cases s s.idx.toNat n.toNat
  · exact .inl ⟨h, by simp only [execDrwWith, State.dataBase, rowCount, hr, draw_inactive, andThen_next]⟩
  · exact .inr ⟨h, by simp only [execDrwWith, State.dataBase, rowCount, hr]⟩

/-- FX65: a load, or the fault. -/
theorem execLdVxI_cases (x : Nibble) (s : State) :
    s.idx.toNat + x.toNat < memSize ∧ execLdVxI x s =
      .next { s with v := loadRegsFrom s.v 0 (s.mem.lookupBytes s.idx.toNat (x.toNat + 1)) } ∨
    memSize ≤ s.idx.toNat + x.toNat ∧ execLdVxI x s = .next (s.raise .loadOob s.idx) := by
  obtain ⟨h, hr⟩ | ⟨h, hr⟩ := readBytes_cases s s.idx.toNat (x.toNat + 1)
  · exact .inl ⟨by omega, by simp only [execLdVxI, State.dataBase, regCount, hr]⟩
  · exact .inr ⟨by omega, by simp only [execLdVxI, State.dataBase, regCount, hr]⟩

/-- FX1E for a given parameter: the sum, wrapped or faulted above 0xFFFF. -/
theorem execAddIWith_cases (p : IdxOverflow) (x : Nibble) (s : State) :
    ((s.idx.toNat + (s.reg x).toNat ≤ 0xFFFF ∨ p = .wrap) ∧
      execAddIWith p x s = .next (s.setIdx (BitVec.ofNat 16 (s.idx.toNat + (s.reg x).toNat)))) ∨
    (0xFFFF < s.idx.toNat + (s.reg x).toNat ∧ p = .fault ∧ execAddIWith p x s = .next (s.raise .idxOverflow s.idx)) := by
  unfold execAddIWith
  by_cases h : s.idx.toNat + (s.reg x).toNat ≤ 0xFFFF
  · exact .inl ⟨.inl h, by simp only [if_pos h]⟩
  · cases p
    · exact .inl ⟨.inr rfl, by simp only [if_neg h]⟩
    · exact .inr ⟨by omega, rfl, by simp only [if_neg h]⟩

end Sys2Proof.Machine
end

