-- ==== Sys2Proof/Laws/Step.lean ====
section
/-! SUPPORT. What fetching a word answers, what one step can do, and that withFetchWord places a word where the next step runs
it. -/

namespace Sys2Proof.Machine

variable (s : State)

theorem joinWord_toNat (hi lo : Byte) : (joinWord hi lo).toNat = 256 * hi.toNat + lo.toNat := by
  have := lo.isLt
  rw [joinWord, BitVec.toNat_append, ← Nat.shiftLeft_add_eq_or_of_lt this, Nat.shiftLeft_eq]
  omega

/-- A fetch reads two bytes, and fails where the second is beyond memory (40_cycle.md R91). -/
theorem fetchWord_cases :
    (s.pc.toNat + 1 < memSize ∧
      s.fetchWord = some (joinWord (s.mem.lookup s.pc.toNat) (s.mem.lookup (s.pc.toNat + 1)))) ∨
    (memSize ≤ s.pc.toNat + 1 ∧ s.fetchWord = none) := by
  by_cases h : s.pc.toNat + 1 < memSize
  · exact .inl ⟨h, by
      simp only [State.fetchWord, readByte_eq s (show s.pc.toNat < memSize by omega), readByte_eq s h]⟩
  · exact .inr ⟨by omega, by
      rw [State.fetchWord, readByte_none s (show memSize ≤ s.pc.toNat + 1 by omega)]
      cases s.readByte s.pc.toNat <;> rfl⟩

theorem cycleEnabled_iff : s.cycleEnabled = true ↔ s.status = .running ∧ s.driverStopped = false := by
  simp [State.cycleEnabled]

/-- A step performs the next request, in the state with it taken. -/
theorem step_eq : step s = perform s.nextRequest s.popped := rfl

theorem step_request {r : Request} (h : s.nextRequest = r) : step s = perform r s.popped := by rw [step_eq, h]

/-- A step with a request in the agenda performs the oldest. -/
theorem step_cons {r : Request} {rest : List Request} (h : s.agenda = r :: rest) :
    step s = perform r { s with agenda := rest } := by
  rw [step_eq, nextRequest_cons s h, popped_cons s h]

/-- A step with a cycle due is a cycle. -/
theorem step_cycle (h : s.CycleDue) : step s = cycle s.popped := step_request s h

/-- Reads depend on what `popped` leaves. -/
@[simp] theorem popped_reg (r : Nibble) : s.popped.reg r = s.reg r := popped_case s (·.reg r) (fun _ _ => rfl)
@[simp] theorem popped_readByte (a : Nat) : s.popped.readByte a = s.readByte a := popped_case s (·.readByte a) (fun _ _ => rfl)
@[simp] theorem popped_fetchWord : s.popped.fetchWord = s.fetchWord := popped_case s State.fetchWord (fun _ _ => rfl)
@[simp] theorem popped_slot (k : Slot) : s.popped.slot k = s.slot k :=
  popped_case s (·.slot k) (fun _ _ => by cases k <;> rfl)

theorem cycle_disabled (h : ¬ (s.status = .running ∧ s.driverStopped = false)) : cycle s = .next s := by
  rw [cycle, if_neg (mt (cycleEnabled_iff s).mp h)]

theorem cycle_exec (h : s.status = .running ∧ s.driverStopped = false) {w : Half} (hw : s.fetchWord = some w) :
    cycle s = exec (decode w) s.fetched := by
  rw [cycle, if_pos ((cycleEnabled_iff s).mpr h), hw]

theorem cycle_fetchFault (h : s.status = .running ∧ s.driverStopped = false) (hw : s.fetchWord = none) :
    cycle s = .next s.fetchFault := by
  rw [cycle, if_pos ((cycleEnabled_iff s).mpr h), hw]

/-- Everything one cycle that answers a next state can be. -/
theorem cycle_next_cases {t : State} (h : cycle s = .next t) :
    (¬ (s.status = .running ∧ s.driverStopped = false) ∧ t = s) ∨
    (s.status = .running ∧ s.driverStopped = false ∧ memSize ≤ s.pc.toNat + 1 ∧ t = s.fetchFault) ∨
    (s.status = .running ∧ s.driverStopped = false ∧ s.pc.toNat + 1 < memSize ∧
      ∃ w, s.fetchWord = some w ∧ exec (decode w) s.fetched = .next t) := by
  by_cases he : s.status = .running ∧ s.driverStopped = false
  · obtain ⟨hp, hw⟩ | ⟨hp, hw⟩ := fetchWord_cases s
    · rw [cycle_exec s he hw] at h
      exact .inr (.inr ⟨he.1, he.2, hp, _, hw, h⟩)
    · rw [cycle_fetchFault s he hw] at h
      cases h
      exact .inr (.inl ⟨he.1, he.2, hp, rfl⟩)
  · rw [cycle_disabled s he] at h
    cases h
    exact .inl ⟨he, rfl⟩

/-- Everything one step that answers a next state can be. -/
theorem step_next_cases {t : State} (h : step s = .next t) :
    (s.nextRequest ≠ .step ∧ perform s.nextRequest s.popped = .next t) ∨
    (s.CycleDue ∧ ¬ (s.status = .running ∧ s.driverStopped = false) ∧ t = s.popped) ∨
    (s.CycleDue ∧ s.status = .running ∧ s.driverStopped = false ∧ memSize ≤ s.pc.toNat + 1 ∧ t = s.popped.fetchFault) ∨
    (s.CycleDue ∧ s.status = .running ∧ s.driverStopped = false ∧ s.pc.toNat + 1 < memSize ∧
      ∃ w, s.fetchWord = some w ∧ exec (decode w) s.popped.fetched = .next t) := by
  by_cases hd : s.CycleDue
  · rw [step_cycle s hd] at h
    have hc := cycle_next_cases s.popped h
    simp only [popped_status, popped_driverStopped, popped_pc, popped_fetchWord] at hc
    obtain h | h | h := hc
    · exact .inr (.inl ⟨hd, h⟩)
    · exact .inr (.inr (.inl ⟨hd, h⟩))
    · exact .inr (.inr (.inr ⟨hd, h⟩))
  · exact .inl ⟨hd, h⟩

/-- The loader answers only where the load is the launch's one load and fits (20_memory.md R57). -/
theorem load_cases (image : List Byte) :
    (s.boot = .awaitingLoad ∧ image.length ≤ maxImage ∧ load image s =
      .next ({ s with mem := s.mem.storeBytes progBase image, boot := .loaded }.emit .loadAccepted)) ∨
    (s.boot ≠ .awaitingLoad ∧ load image s = .refused .loadOutOfTurn) ∨
    (s.boot = .awaitingLoad ∧ maxImage < image.length ∧ load image s = .refused (.loadTooLong image.length)) := by
  by_cases h1 : s.boot = .awaitingLoad
  · by_cases h2 : maxImage < image.length
    · exact .inr (.inr ⟨h1, h2, by rw [load, if_neg (not_not.mpr h1), if_pos h2]⟩)
    · exact .inl ⟨h1, Nat.not_lt.mp h2, by rw [load, if_neg (not_not.mpr h1), if_neg h2]⟩
  · exact .inr (.inl ⟨h1, by rw [load, if_pos h1]⟩)

/-- A step from a state in which withFetchWord placed a word runs exactly that word, in the placed state with pc advanced, from
every state with a canonical memory. -/
theorem step_withFetchWord (nbits w : Nat) (hm : s.mem.wf = true) : step (s.withFetchWord nbits w) =
    exec (decode (tableWord nbits w)) (s.withFetchWord nbits w).popped.fetched := by
  have hlen : ∀ u : Half, [hiByte u, loByte u].length = 2 := fun _ => rfl
  have hfetch : ∀ (t : State) (a : Nat) (u : Half), t.mem.wf = true → t.pc.toNat = a → a + 1 < memSize →
      (t.storeWord a u).fetchWord = some u := by
    intro t a u ht ha hlt
    obtain ⟨-, hw⟩ | ⟨hp, -⟩ := fetchWord_cases (t.storeWord a u)
    · rw [hw]
      simp only [storeWord_mem, storeWord_pc, ha]
      rw [Memory.lookup_storeBytes _ a (by rw [hlen]; omega) ht, Memory.lookup_storeBytes _ (a + 1) (by rw [hlen]; omega) ht,
        dif_pos ⟨by omega, by rw [hlen]; omega⟩, dif_pos ⟨by omega, by rw [hlen]; omega⟩]
      simp
    · simp only [storeWord_pc, ha] at hp; omega
  rw [step_cycle (s.withFetchWord nbits w) (show State.nextRequest _ = _ from rfl)]
  refine cycle_exec _ ⟨by rfl, by rfl⟩ ?_
  rw [popped_fetchWord]
  simp only [State.withFetchWord, placeWord]
  by_cases h : s.pc.toNat + 1 < memSize
  · exact hfetch _ _ _ hm (by simp only [if_pos h]) (by simp only [if_pos h]; exact h)
  · exact hfetch _ _ _ hm (by simp only [if_neg h]; rfl) (by simp only [if_neg h]; decide)

end Sys2Proof.Machine
end

