-- ==== Sys2Proof/Tests/Slice0.lean ====
section
/-! SUPPORT. The model's own tests: words written out from 30_encoding.md, the smoke test of the well-formedness check, vectors of
95_test_vectors.md (each test names its vector), and a witness for the hypotheses of every obligation that has some. Every
expected value stands in the spec. -/

namespace Sys2Proof.Tests

open Sys2Proof.Machine

set_option maxRecDepth 100000

/-! ## Helpers -/

/-- The state after reset with some registers set. -/
def regs (l : List (Nibble × Byte)) : State := l.foldl (fun s p => s.setReg p.1 p.2) State.reset

/-- A state with idx set and some bytes at 0x300. -/
def data (idx : Half) (bytes : List Byte) (s : State) : State := { s with idx := idx, mem := s.mem.storeBytes 0x300 bytes }

/-- Whether a step or a meaning answers a next state with a property. -/
def after (r : Result State) (p : State → Bool) : Bool :=
  match r with
  | .next t => p t
  | _ => false

/-- One step that runs a word placed at pc. -/
def runs (w : Nat) (s : State) (p : State → Bool) : Bool := after (step (s.withFetchWord 16 w)) p

/-- One step that performs a request. -/
def asks (r : Request) (s : State) (p : State → Bool) : Bool := after (step { s with agenda := [r] }) p

/-- Whether a step is refused with a reason. -/
def refuses (s : State) (why : Refusal) : Bool :=
  match step s with
  | .refused r => r == why
  | _ => false

/-! ## Decoding: words written out from 30_encoding.md R73, one or more for every constructor -/

theorem test_decode_nop : decode 0b0000000000000000#16 = .nop := by decide
theorem test_decode_cls : decode 0b0000000011100000#16 = .cls ∧ decode 0b0000111111100000#16 = .cls := by decide
theorem test_decode_jp : decode 0b0001001000001100#16 = .jp 0x20C#12 := by decide
theorem test_decode_seImm : decode 0b0011000100100100#16 = .seImm 1#4 0x24#8 := by decide
theorem test_decode_sneImm : decode 0b0100000100100100#16 = .sneImm 1#4 0x24#8 := by decide
theorem test_decode_seReg : decode 0b0101000100100111#16 = .seReg 1#4 2#4 := by decide
theorem test_decode_ldImm : decode 0b0110000100100100#16 = .ldImm 1#4 0x24#8 := by decide
theorem test_decode_addImm : decode 0b0111000000001111#16 = .addImm 0#4 0x0F#8 := by decide
theorem test_decode_ldReg : decode 0b1000000100100000#16 = .ldReg 1#4 2#4 := by decide
theorem test_decode_orReg : decode 0b1000000000010001#16 = .orReg 0#4 1#4 := by decide
theorem test_decode_andReg : decode 0b1000000000010010#16 = .andReg 0#4 1#4 := by decide
theorem test_decode_xorReg : decode 0b1000000000010011#16 = .xorReg 0#4 1#4 := by decide
theorem test_decode_addReg : decode 0b1000111100010100#16 = .addReg 0xF#4 1#4 := by decide
theorem test_decode_sub : decode 0b1000000011110101#16 = .sub 0#4 0xF#4 := by decide
theorem test_decode_shr : decode 0b1000000000010110#16 = .shr 0#4 1#4 := by decide
theorem test_decode_subn : decode 0b1000000000010111#16 = .subn 0#4 1#4 := by decide
theorem test_decode_shl : decode 0b1000001100101110#16 = .shl 3#4 2#4 := by decide
theorem test_decode_sneReg : decode 0b1001000100101111#16 = .sneReg 1#4 2#4 := by decide
theorem test_decode_ldI : decode 0b1010001000001100#16 = .ldI 0x20C#12 := by decide
theorem test_decode_rnd : decode 0b1100000000001111#16 = .rnd 0#4 0x0F#8 := by decide
theorem test_decode_drw : decode 0b1101000100100101#16 = .drw 1#4 2#4 5#4 := by decide
theorem test_decode_addI : decode 0b1111000100011110#16 = .addI 1#4 := by decide
theorem test_decode_ldVxI : decode 0b1111001001100101#16 = .ldVxI 2#4 := by decide
theorem test_decode_unknown : decode 0b0010001000001000#16 = .unknown 0x2208#16 ∧
    decode 0b1000000000011000#16 = .unknown 0x8018#16 := by decide

/-- The first byte is the word's high byte (20_memory.md R53), and one byte is no instruction. -/
theorem test_decode_bytes : (decodeBytes [0x12#8, 0x34#8, 0x56#8] = .ok (.jp 0x234#12, [0x56#8])) ∧
    decodeBytes [0x12#8] = .error .needsTwoBytes := ⟨rfl, rfl⟩

theorem test_table_word : decodeTableWord 16 0xF265 = some (.ldVxI 2#4) := by decide

/-! ## Well-formedness: an instruction's own word is no unknown opcode -/

theorem test_illFormed_nop_word : (Instr.unknown 0x0000#16).wellFormed = false := by decide
theorem test_illFormed_cls_word : (Instr.unknown 0x0FE0#16).wellFormed = false := by decide
theorem test_illFormed_class_word : (Instr.unknown 0x1234#16).wellFormed = false ∧
    (Instr.unknown 0xD000#16).wellFormed = false := by decide
theorem test_illFormed_class8_word : (Instr.unknown 0x800E#16).wellFormed = false ∧
    (Instr.unknown 0x8007#16).wellFormed = false := by decide
theorem test_illFormed_classF_word : (Instr.unknown 0xF31E#16).wellFormed = false ∧
    (Instr.unknown 0xF365#16).wellFormed = false := by decide
theorem test_wellFormed_unknown : (Instr.unknown 0x00EE#16).wellFormed = true ∧ (Instr.unknown 0x2208#16).wellFormed = true ∧
    (Instr.unknown 0x8018#16).wellFormed = true ∧ (Instr.unknown 0xF055#16).wellFormed = true := by decide

/-! ## The cycle -/

/-- V-F1 -/
theorem test_fetch_big_endian : runs 0x1234 State.reset (fun t => t.pc == 0x234#16) = true := by decide
/-- V-F2 -/
theorem test_fetch_last_word :
    runs 0x0000 (State.reset.setPc 0x0FFE#16) (fun t => t.pc == 0x1000#16 && t.outputs == []) = true := by decide
/-- V-F3 and V-F4 -/
theorem test_fetch_fault : after (step (State.reset.setPc 0x1000#16))
      (fun t => t.status == .faulted .fetchOob 0x1000#16 && t.pc == 0x1000#16) = true ∧
    after (step (State.reset.setPc 0x0FFF#16))
      (fun t => t.status == .faulted .fetchOob 0x0FFF#16 && t.pc == 0x0FFF#16) = true := by decide
/-- V-F5 -/
theorem test_fetch_odd_pc :
    runs 0x607F (State.reset.setPc 0x0201#16) (fun t => t.reg 0#4 == 0x7F#8 && t.pc == 0x203#16) = true := by decide
/-- V-F12 -/
theorem test_faulted_cycle : after (step (State.reset.raise .loadOob 0x0FFF#16)) (fun t => t.pc == 0x0200#16) = true := by decide

/-! ## Instructions -/

/-- 40_cycle.md R93, its example -/
theorem test_nop : runs 0x0000 (State.reset.setPc 0x300#16) (fun t => t.pc == 0x302#16 && t.outputs == []) = true := by decide
/-- V-F6 -/
theorem test_unknown_event :
    runs 0xE09E State.reset (fun t => t.pc == 0x202#16 && t.outputs == [.unknownOp 0x200#16 0xE09E#16]) = true := by decide
/-- V-C18 -/
theorem test_unknown_call : runs 0x2208 State.reset (fun t => t.pc == 0x202#16 && t.sp == 0 && t.stack == []) = true := by decide
/-- V-C1 and V-C3 -/
theorem test_jp : runs 0x1FFF State.reset (fun t => t.pc == 0x0FFF#16 && t.status == .running) = true ∧
    runs 0x1301 State.reset (fun t => t.pc == 0x301#16) = true := by decide
/-- V-C4 and V-C5 -/
theorem test_seImm : runs 0x3310 (regs [(3#4, 0x10#8)]) (fun t => t.pc == 0x204#16) = true ∧
    runs 0x3311 (regs [(3#4, 0x10#8)]) (fun t => t.pc == 0x202#16) = true := by decide
/-- V-C14 -/
theorem test_seImm_top : runs 0x3000 (State.reset.setPc 0x0FFE#16) (fun t => t.pc == 0x1002#16) = true := by decide
/-- V-C6 and V-C7 -/
theorem test_sneImm : runs 0x4124 (regs [(1#4, 0x24#8)]) (fun t => t.pc == 0x202#16) = true ∧
    runs 0x4124 (regs [(1#4, 0x25#8)]) (fun t => t.pc == 0x204#16) = true := by decide
/-- V-C9 and V-C10 -/
theorem test_seReg : runs 0x5127 (regs [(1#4, 7#8), (2#4, 7#8)]) (fun t => t.pc == 0x204#16) = true ∧
    runs 0x5120 (regs [(1#4, 7#8), (2#4, 8#8)]) (fun t => t.pc == 0x202#16) = true := by decide
/-- V-C12 and V-C13 -/
theorem test_sneReg : runs 0x9110 State.reset (fun t => t.pc == 0x202#16) = true ∧
    runs 0x912F (regs [(1#4, 7#8), (2#4, 8#8)]) (fun t => t.pc == 0x204#16) = true := by decide
/-- V-A1 -/
theorem test_ldImm : runs 0x6FAB State.reset (fun t => t.reg 0xF#4 == 0xAB#8) = true := by decide
/-- V-A3 and V-A4 -/
theorem test_addImm : runs 0x7001 (regs [(0#4, 0xFE#8)]) (fun t => t.reg 0#4 == 0xFF#8) = true ∧
    runs 0x7001 (regs [(0#4, 0xFF#8)]) (fun t => t.reg 0#4 == 0xFF#8 && t.reg 0xF#4 == 0#8) = true := by decide
/-- V-A8 -/
theorem test_ldReg : runs 0x8F00 (regs [(0#4, 0x12#8), (0xF#4, 0x34#8)]) (fun t => t.reg 0xF#4 == 0x12#8) = true := by decide
/-- V-A9 -/
theorem test_orReg : runs 0x8011 (regs [(0#4, 0xF0#8), (1#4, 0x0F#8), (0xF#4, 0x55#8)])
    (fun t => t.reg 0#4 == 0xFF#8 && t.reg 0xF#4 == 0x55#8) = true := by decide
/-- V-A10 -/
theorem test_andReg : runs 0x8012 (regs [(0#4, 0xF0#8), (1#4, 0x3C#8), (0xF#4, 0x55#8)])
    (fun t => t.reg 0#4 == 0x30#8 && t.reg 0xF#4 == 0x55#8) = true := by decide
/-- V-A11 and V-A12 -/
theorem test_xorReg : runs 0x8013 (regs [(0#4, 0xF0#8), (1#4, 0x3C#8)]) (fun t => t.reg 0#4 == 0xCC#8) = true ∧
    runs 0x8003 (regs [(0#4, 0x5A#8)]) (fun t => t.reg 0#4 == 0#8) = true := by decide
/-- V-A13 and V-A15 -/
theorem test_addReg : runs 0x8014 (regs [(0#4, 0xFF#8), (1#4, 0x01#8)]) (fun t => t.reg 0#4 == 0xFF#8 && t.reg 0xF#4 == 1#8) = true ∧
    runs 0x8014 (regs [(0#4, 0xFE#8), (1#4, 0x01#8)]) (fun t => t.reg 0#4 == 0xFF#8 && t.reg 0xF#4 == 0#8) = true := by decide
/-- V-A18 and V-A20 -/
theorem test_addReg_flag : runs 0x8F14 (regs [(0xF#4, 0x10#8), (1#4, 0x20#8)]) (fun t => t.reg 0xF#4 == 0x30#8) = true ∧
    runs 0x80F4 (regs [(0#4, 5#8), (0xF#4, 1#8)]) (fun t => t.reg 0#4 == 6#8 && t.reg 0xF#4 == 0#8) = true := by decide

/-- V-A25 under both values of P_8XY5_OPERANDS, the other parameter being of no effect there -/
theorem test_sub_flag_source :
    after (execSubWith .reread .wrap 0#4 0xF#4 (regs [(0#4, 0x10#8), (0xF#4, 3#8)]))
      (fun t => t.reg 0#4 == 0x0F#8 && t.reg 0xF#4 == 1#8) = true ∧
    after (execSubWith .latched .wrap 0#4 0xF#4 (regs [(0#4, 0x10#8), (0xF#4, 3#8)]))
      (fun t => t.reg 0#4 == 0x0D#8 && t.reg 0xF#4 == 1#8) = true := by decide
/-- V-A29 under every value of the two parameters -/
theorem test_sub_flag_destination :
    after (execSubWith .reread .wrap 0xF#4 1#4 (regs [(0xF#4, 0x10#8), (1#4, 5#8)])) (fun t => t.reg 0xF#4 == 0xFC#8) = true ∧
    after (execSubWith .reread .saturate 0xF#4 1#4 (regs [(0xF#4, 0x10#8), (1#4, 5#8)])) (fun t => t.reg 0xF#4 == 0#8) = true ∧
    after (execSubWith .latched .wrap 0xF#4 1#4 (regs [(0xF#4, 0x10#8), (1#4, 5#8)])) (fun t => t.reg 0xF#4 == 0x0B#8) = true := by
  decide
/-- V-A35 and V-A37 -/
theorem test_shr : runs 0x8016 (regs [(0#4, 0xAA#8), (1#4, 4#8)]) (fun t => t.reg 0#4 == 2#8 && t.reg 0xF#4 == 0#8) = true ∧
    runs 0x8F16 (regs [(1#4, 2#8)]) (fun t => t.reg 0xF#4 == 0#8) = true := by decide
/-- V-A43 under both values of SUB_UNDERFLOW -/
theorem test_subn_underflow :
    after (execSubnWith .wrap 0#4 1#4 (regs [(0#4, 5#8), (1#4, 3#8)])) (fun t => t.reg 0#4 == 0xFE#8 && t.reg 0xF#4 == 0#8) = true ∧
    after (execSubnWith .saturate 0#4 1#4 (regs [(0#4, 5#8), (1#4, 3#8)])) (fun t => t.reg 0#4 == 0#8 && t.reg 0xF#4 == 1#8) = true := by
  decide
/-- V-A41 and V-A48 -/
theorem test_subn_flag : runs 0x8017 (regs [(0#4, 0#8), (1#4, 5#8)]) (fun t => t.reg 0#4 == 5#8 && t.reg 0xF#4 == 0#8) = true ∧
    runs 0x80F7 (regs [(0#4, 2#8), (0xF#4, 5#8)]) (fun t => t.reg 0#4 == 3#8 && t.reg 0xF#4 == 1#8) = true := by decide
/-- V-A50 and V-A57 -/
theorem test_shl : runs 0x801E (regs [(1#4, 0xFF#8)]) (fun t => t.reg 0#4 == 0xFE#8 && t.reg 0xF#4 == 0x80#8) = true ∧
    runs 0x8FFE (regs [(0xF#4, 0x41#8)]) (fun t => t.reg 0xF#4 == 0#8) = true := by decide
/-- V-A58 -/
theorem test_rnd : after (execRndWith 0xAB#8 0#4 0x0F#8 State.reset) (fun t => t.reg 0#4 == 0x0B#8) = true := by decide
/-- V-I1 and V-I2 -/
theorem test_ldI : runs 0xA123 State.reset (fun t => t.idx == 0x0123#16) = true ∧
    runs 0xAFFF State.reset (fun t => t.idx == 0x0FFF#16) = true := by decide
/-- V-I3 -/
theorem test_addI : runs 0xF11E ((regs [(1#4, 0xFF#8), (0xF#4, 0x77#8)]).setIdx 0x20C#16)
    (fun t => t.idx == 0x30B#16 && t.reg 0xF#4 == 0x77#8) = true := by decide
/-- V-I6 under both values of IDX_OVERFLOW -/
theorem test_addI_overflow :
    after (execAddIWith .wrap 0#4 ((regs [(0#4, 1#8)]).setIdx 0xFFFF#16)) (fun t => t.idx == 0#16 && t.status == .running) = true ∧
    after (execAddIWith .fault 0#4 ((regs [(0#4, 1#8)]).setIdx 0xFFFF#16))
      (fun t => t.idx == 0xFFFF#16 && t.status == .faulted .idxOverflow 0xFFFF#16) = true := by decide
/-- V-I8, its bytes at 0x300 -/
theorem test_ldVxI : runs 0xF265 (data 0x300#16 [0x12#8, 0xFF#8, 0x01#8] (regs [(3#4, 9#8)]))
    (fun t => t.reg 0#4 == 0x12#8 && t.reg 1#4 == 0xFF#8 && t.reg 2#4 == 1#8 && t.reg 3#4 == 9#8 && t.idx == 0x300#16) = true := by
  decide
/-- V-I10 -/
theorem test_ldVxI_fault : runs 0xF165 ((regs [(0#4, 9#8), (1#4, 9#8)]).setIdx 0x0FFF#16)
    (fun t => t.status == .faulted .loadOob 0x0FFF#16 && t.reg 0#4 == 9#8 && t.reg 1#4 == 9#8 && t.pc == 0x202#16) = true := by
  decide
/-- V-D14, a pixel on in each slot -/
theorem test_cls : runs 0x00E0
    { State.reset with fb0 := setGridPixel blankGrid 5 5 255#8, fb1 := setGridPixel blankGrid 6 6 255#8, cur := .one }
    (fun t => t.pixel .zero 5 5 == 0#8 && t.pixel .one 6 6 == 0#8 && t.cur == .one) = true := by decide
/-- V-D1 -/
theorem test_drw_origin : after (execDrwWith true 0#4 1#4 1#4 (data 0x300#16 [0x80#8] (regs [(0#4, 70#8), (1#4, 33#8)])))
    (fun t => t.pixel .one 30 6 == 255#8 && t.pixel .one 31 6 == 0#8 && t.pixel .zero 30 6 == 0#8 && t.reg 0xF#4 == 0#8) = true := by
  decide
/-- V-D6's second draw, V-D2's clipped column 63, V-D12 without a collision -/
theorem test_drw_toggle : after (execDrwWith false 0#4 1#4 1#4
      { data 0x300#16 [0x3C#8] (regs []) with fb1 := setGridPixel blankGrid 31 2 255#8 })
    (fun t => t.pixel .one 31 2 == 0#8 && t.pixel .one 31 4 == 255#8 && t.reg 0xF#4 == 1#8) = true ∧
    after (execDrwWith true 0#4 1#4 1#4 (data 0x300#16 [0xFF#8] (regs [(0#4, 60#8), (0xF#4, 0x33#8)])))
    (fun t => t.pixel .one 31 63 == 255#8 && t.pixel .one 31 0 == 0#8 && t.reg 0xF#4 == 0#8) = true := by decide
/-- V-D8 and V-D7 -/
theorem test_drw_range : runs 0xD012 (State.reset.setIdx 0x0FFF#16)
      (fun t => t.status == .faulted .spriteOob 0x0FFF#16 && t.pc == 0x202#16) = true ∧
    after (execDrwWith false 0#4 0#4 0#4 ((regs [(0xF#4, 0x33#8)]).setIdx 0xFFFF#16))
      (fun t => t.status == .running && t.reg 0xF#4 == 0x33#8) = true := by decide

/-! ## Ports -/

/-- V-B1, V-B2 and V-B5 -/
theorem test_framebuffer_ports :
    asks (.shared .readCurrent) { State.reset with fb0 := setGridPixel blankGrid 5 5 255#8 }
      (fun t => t.outputs == [.frame (setGridPixel blankGrid 5 5 255#8)]) = true ∧
    asks (.shared .swap) State.reset (fun t => t.cur == .one) = true ∧
    clear (.slot 2) State.reset = .refused (.noSuchSlot 2) := ⟨by decide, by decide, rfl⟩
/-- V-B4 and V-B3: a read between the clears, for each order -/
theorem test_cls_between :
    after (execClsWith .zero [.readCurrent] { State.reset with fb0 := setGridPixel blankGrid 5 5 255#8 })
      (fun t => t.outputs == [.frame blankGrid]) = true ∧
    after (execClsWith .one [.readCurrent] { State.reset with fb0 := setGridPixel blankGrid 5 5 255#8 })
      (fun t => t.outputs == [.frame (setGridPixel blankGrid 5 5 255#8)] && t.pixel .zero 5 5 == 0#8) = true := by decide
/-- 70_reset_and_hazards.md R186, "how often": the requests that follow the agenda's end come again -/
theorem test_requests_repeat : after (Host.Core.run Sys2Proof.core 3 { State.reset with outside := .repeating [.shared .swap] [] })
    (fun t => t.cur == .one && t.pc == 0x200#16) = true := by decide
/-- V-T2, V-T3 and V-T4 -/
theorem test_timer_ports : asks (.shared .tick) { State.reset with st := 255#8 } (fun t => t.dt == 0#8 && t.st == 254#8) = true ∧
    asks (.shared (.writeTimer .sound 5#8)) State.reset (fun t => t.st == 5#8 && t.dt == 0#8) = true ∧
    asks (.shared .readTimers) { State.reset with dt := 7#8, st := 9#8 } (fun t => t.outputs == [.timers 7#8 9#8]) = true := by decide
/-- V-T5 -/
theorem test_tick_while_faulted :
    asks (.shared .tick) { State.reset.raise .loadOob 0#16 with dt := 5#8 } (fun t => t.dt == 4#8) = true := by decide
/-- V-R1 -/
theorem test_reset : asks .reset ((regs [(1#4, 9#8)]).raise .loadOob 0x0FFF#16)
    (fun t => t.status == .running && t.reg 1#4 == 0#8 && t.pc == 0x200#16 && t.boot == .awaitingLoad) = true := by decide
/-- 95_test_vectors.md S8, and V-R4 -/
theorem test_load : asks (.load [0xAA#8, 0xBB#8, 0xCC#8]) State.reset
      (fun t => t.readByte 0x200 == some 0xAA#8 && t.readByte 0x202 == some 0xCC#8 && t.readByte 0x203 == some 0#8) = true ∧
    refuses { State.reset with agenda := [.load []], boot := .started } .loadOutOfTurn = true := by decide

/-! ## Witnesses: concrete states and operands that meet the hypotheses of the obligations -/

/-- The first state of a run whose image is one word. -/
def holding (w : Half) : State := State.reset.storeWord 0x200 w

/-- The hypotheses every statement about an enabled cycle shares. -/
theorem witness_enabled : State.reset.CycleDue ∧ ({ State.reset with agenda := [.step] } : State).CycleDue ∧
    State.reset.status = .running ∧ State.reset.driverStopped = false := ⟨rfl, rfl, rfl, rfl⟩

theorem witness_DecodeEncodeRoundTrip : Instr.wellFormed (.ldVxI 0xF#4) = true ∧ Instr.wellFormed (.unknown 0x2FFF#16) = true := by decide
theorem witness_UnknownExactlyOnUnknownSpace : decode 0xFFFF#16 = .unknown 0xFFFF#16 := by decide
theorem witness_StepRunsDecodedInstruction : (holding 0x6124#16).CycleDue ∧ (holding 0x6124#16).status = .running ∧
    (holding 0x6124#16).driverStopped = false ∧ (holding 0x6124#16).readByte (holding 0x6124#16).pc.toNat = some 0x61#8 ∧
    (holding 0x6124#16).readByte ((holding 0x6124#16).pc.toNat + 1) = some 0x24#8 ∧
    (0x6124#16).toNat = 256 * (0x61#8).toNat + (0x24#8).toNat ∧ decode 0x6124#16 = .ldImm 1#4 0x24#8 := ⟨rfl, by decide⟩
theorem witness_FetchBeyondMemoryFaults : (State.reset.setPc 0x0FFF#16).CycleDue ∧ (State.reset.setPc 0x0FFF#16).status = .running ∧
    (State.reset.setPc 0x0FFF#16).driverStopped = false ∧ 0x0FFF ≤ (State.reset.setPc 0x0FFF#16).pc.toNat := ⟨rfl, by decide⟩
theorem witness_NoCycleWhileFaultedOrStopped :
    ((State.reset.raise .fetchOob 0x1000#16).CycleDue ∧ (State.reset.raise .fetchOob 0x1000#16).EndsBadly) ∧
    ((stop .driver State.reset).CycleDue ∧ (stop .driver State.reset).driverStopped = true) :=
  ⟨⟨rfl, _, _, rfl⟩, rfl, rfl⟩
theorem witness_FaultsArePrecise : ∃ t, exec (.ldVxI 1#4) (State.reset.setIdx 0x0FFF#16) = .next t ∧
    (State.reset.setIdx 0x0FFF#16).status = .running ∧ t.status = .faulted .loadOob 0x0FFF#16 := ⟨_, rfl, rfl, rfl⟩
theorem witness_NopOnlyAdvancesPc : State.reset.CycleDue ∧ State.reset.readByte State.reset.pc.toNat = some 0#8 ∧
    State.reset.readByte (State.reset.pc.toNat + 1) = some 0#8 := ⟨rfl, by decide⟩
theorem witness_UnknownIsLoggedNoOp : (holding 0x2208#16).CycleDue ∧ (holding 0x2208#16).readByte (holding 0x2208#16).pc.toNat = some 0x22#8 ∧
    (holding 0x2208#16).readByte ((holding 0x2208#16).pc.toNat + 1) = some 0x08#8 ∧
    (0x2208#16).toNat = 256 * (0x22#8).toNat + (0x08#8).toNat ∧ inUnknownSpace 0x2208#16 = true ∧
    (holding 0x2208#16).status = .running ∧ (holding 0x2208#16).driverStopped = false := ⟨rfl, by decide⟩
/-- The last clause of JumpSetsPc, at its one target. -/
theorem witness_JumpSetsPc : State.reset.CycleDue ∧ (0xFFF#12 : Addr12) = 0xFFF#12 ∧ State.reset.status = .running ∧
    State.reset.driverStopped = false := ⟨rfl, by decide⟩
theorem witness_JumpSkipAndIndexFrame :
    (∃ t, exec (.jp 0x20C#12) State.reset = .next t) ∧ (∃ t, exec (.seImm 0#4 0#8) State.reset = .next t) ∧
    (∃ t, exec (.sneImm 0#4 0#8) State.reset = .next t) ∧ (∃ t, exec (.seReg 0#4 1#4) State.reset = .next t) ∧
    (∃ t, exec (.sneReg 0#4 1#4) State.reset = .next t) ∧ (∃ t, exec (.ldI 0x20C#12) State.reset = .next t) :=
  ⟨⟨_, rfl⟩, ⟨_, rfl⟩, ⟨_, rfl⟩, ⟨_, rfl⟩, ⟨_, rfl⟩, ⟨_, rfl⟩⟩
theorem witness_PcChangesOnlyByJumpAndSkip : (∃ t, exec (.jp 0x20C#12) State.reset = .next t) ∧
    (∃ t, exec (.seImm 0#4 0#8) State.reset = .next t) ∧ (∃ t, exec (.drw 0#4 0#4 0#4) State.reset = .next t) :=
  ⟨⟨_, rfl⟩, ⟨_, rfl⟩, ⟨_, rfl⟩⟩
theorem witness_SelfJumpRepeats : (holding 0x1200#16).EndsWell ∧ (holding 0x1200#16).CycleDue ∧
    (holding 0x1200#16).driverStopped = false := ⟨⟨rfl, by decide, by decide⟩, rfl, rfl⟩
/-- The inner hypotheses of the register statements: a destination that is not V[F], and one that is. -/
theorem witness_LoadImmediateAndMove : (0#4 : Nibble) ≠ 0xF#4 := by decide
theorem witness_AddImmediateSaturates : (0xE#4 : Nibble) ≠ 0xF#4 := by decide
theorem witness_LogicBitwise : (0xE#4 : Nibble) ≠ 0xF#4 ∧ (7 : Nat) < 8 := by decide
theorem witness_AddRegistersSaturateWithFlag : (0xE#4 : Nibble) ≠ 0xF#4 := by decide
theorem witness_SubtractFloorsAtZero : (0#4 : Nibble) ≠ 0xF#4 ∧ (0xE#4 : Nibble) ≠ 0xF#4 := by decide
/-- Each clause: V[x] not above V[y]; V[x] above V[F]; V[F] above V[y] for V[y] = 0, 1 and 2. -/
theorem witness_SubtractOnTheFlagRegister :
    ((regs [(0xF#4, 1#8)]).reg 0#4).toNat ≤ ((regs [(0xF#4, 1#8)]).reg 0xF#4).toNat ∧
    ((regs [(0#4, 1#8)]).reg 0xF#4).toNat < ((regs [(0#4, 1#8)]).reg 0#4).toNat ∧
    (((regs [(0xF#4, 1#8)]).reg 1#4).toNat < ((regs [(0xF#4, 1#8)]).reg 0xF#4).toNat ∧ ((regs [(0xF#4, 1#8)]).reg 1#4).toNat = 0) ∧
    (((regs [(0xF#4, 2#8), (1#4, 1#8)]).reg 1#4).toNat < ((regs [(0xF#4, 2#8), (1#4, 1#8)]).reg 0xF#4).toNat ∧
      ((regs [(0xF#4, 2#8), (1#4, 1#8)]).reg 1#4).toNat = 1) ∧
    (((regs [(0xF#4, 3#8), (1#4, 2#8)]).reg 1#4).toNat < ((regs [(0xF#4, 3#8), (1#4, 2#8)]).reg 0xF#4).toNat ∧
      2 ≤ ((regs [(0xF#4, 3#8), (1#4, 2#8)]).reg 1#4).toNat) := by decide
theorem witness_ShiftRightTakesVy : (0#4 : Nibble) ≠ 0xF#4 := by decide
/-- Each clause: a difference that does not underflow, one that does; operands that differ, equal ones. -/
theorem witness_SubtractReverseComparesNewValue :
    ((regs []).reg 0#4).toNat ≤ ((regs []).reg 1#4).toNat ∧ ((regs [(0#4, 1#8)]).reg 1#4).toNat < ((regs [(0#4, 1#8)]).reg 0#4).toNat ∧
    (0#4 : Nibble) ≠ 0xF#4 ∧ (0#4 : Nibble) ≠ 1#4 ∧ (0#4 : Nibble) = 0#4 := by decide
theorem witness_ShiftLeftLeavesRawFlag : (0#4 : Nibble) ≠ 0xF#4 := by decide
theorem witness_RandomIsMaskedDraw : (7 : Nat) < 8 ∧ (1#4 : Nibble) ≠ 0#4 := by decide
theorem witness_RegisterInstructionFrame : (∃ t, exec (.ldImm 0#4 1#8) State.reset = .next t) ∧
    (∃ t, exec (.xorReg 0#4 1#4) State.reset = .next t) ∧ (∃ t, exec (.sub 0#4 1#4) State.reset = .next t) ∧
    (∃ t, exec (.shl 0xF#4 0xF#4) State.reset = .next t) := ⟨⟨_, rfl⟩, ⟨_, rfl⟩, ⟨_, rfl⟩, ⟨_, rfl⟩⟩
theorem witness_BareSubtractionUnderflow : (1#8 : Byte).toNat ≤ (1#8 : Byte).toNat ∧ (0#8 : Byte).toNat < (1#8 : Byte).toNat := by decide
/-- Each clause at the boundary: the sum 0xFFFF, and the sum 0x10000. -/
theorem witness_AddToIndex :
    ((regs [(0#4, 0xFF#8)]).setIdx 0xFF00#16).idx.toNat + (((regs [(0#4, 0xFF#8)]).setIdx 0xFF00#16).reg 0#4).toNat ≤ 0xFFFF ∧
    0xFFFF < ((regs [(0#4, 1#8)]).setIdx 0xFFFF#16).idx.toNat + (((regs [(0#4, 1#8)]).setIdx 0xFFFF#16).reg 0#4).toNat := by decide
/-- Each clause at the boundary: the last byte of memory, and one beyond. -/
theorem witness_LoadRegistersFromMemory : (State.reset.setIdx 0x0FF0#16).idx.toNat + (0xF#4 : Nibble).toNat < 0x1000 ∧
    0x1000 ≤ (State.reset.setIdx 0x0FF1#16).idx.toNat + (0xF#4 : Nibble).toNat ∧ (0xE#4 : Nibble).toNat < (0xF#4 : Nibble).toNat := by
  decide
theorem witness_NoInstructionWritesMemory : (∃ t, exec (.ldImm 0#4 1#8) State.reset = .next t) ∧
    (∃ t, step State.reset = .next t) ∧ (∀ image, State.reset.nextRequest ≠ .load image) ∧
    State.reset.nextRequest ≠ .reset := ⟨⟨_, rfl⟩, ⟨_, rfl⟩, fun _ => by simp [State.nextRequest, State.reset], by decide⟩
theorem witness_InstructionsLeaveOtherStateAlone : (∃ t, exec .cls State.reset = .next t) ∧ State.reset.inside = [] :=
  ⟨⟨_, rfl⟩, rfl⟩
theorem witness_ClearScreenBlanksBothSlots : State.reset.inside = [] := rfl
/-- A read alone, and a read after a swap and before a tick; from a list, and from what the outside agents do after the last list. -/
theorem witness_ReadBetweenTheClears :
    ({ State.reset with between := [[.readCurrent]] } : State).inside = [] ++ .readCurrent :: [] ∧
    ({ State.reset with outside := .repeating [] [.swap, .readCurrent, .tick] } : State).inside = [.swap] ++ .readCurrent :: [.tick] :=
  ⟨rfl, rfl⟩

/-- A state whose sprite is the one byte 0x80 at 0x300. -/
def spriteState : State := data 0x300#16 [0x80#8] State.reset

/-- The sprite is read, covers one pixel, and leaves another uncovered; the other end is the empty sprite. -/
theorem witness_DrawTogglesCoveredPixels : [0x80#8].length = (1#4 : Nibble).toNat ∧
    (∀ k (h : k < [0x80#8].length), spriteState.readByte (spriteState.idx.toNat + k) = some [0x80#8][k]) ∧
    spriteCovers (spriteState.reg 0#4) (spriteState.reg 1#4) [0x80#8] 31 0 ∧
    (¬ spriteCovers (spriteState.reg 0#4) (spriteState.reg 1#4) [0x80#8] 30 0) ∧
    ([] : List Byte).length = (0#4 : Nibble).toNat := by
  refine ⟨by decide, by decide, ⟨0, 0, 0x80#8, rfl, by decide, by decide, by decide, by decide⟩, ?_, by decide⟩
  rintro ⟨k, j, b, hb, -, -, hr, -⟩
  have hk : k = 1 := by
    have h0 : (spriteState.reg 1#4).toNat = 0 := by decide
    rw [h0] at hr
    change 31 - 30 = 0 % 32 + k at hr
    omega
  subst hk
  simp at hb

/-- A covered pixel that is on; and a state in which no pixel is. -/
theorem witness_DrawReportsErasure :
    (∃ r c, spriteCovers 0#8 0#8 [0x80#8] r c ∧
      ({ spriteState with fb1 := setGridPixel blankGrid 31 0 255#8 } : State).pixel .one r c ≠ 0#8) ∧
    ¬ ∃ r c, spriteCovers 0#8 0#8 [0x80#8] r c ∧ spriteState.pixel .one r c ≠ 0#8 := by
  refine ⟨⟨31, 0, ⟨0, 0, 0x80#8, rfl, by decide, by decide, by decide, by decide⟩, by decide⟩, ?_⟩
  rintro ⟨r, c, -, h⟩
  refine h ?_
  have : ∀ (r : Fin screenH) (c : Fin screenW), gridPixel blankGrid r c = 0#8 := by
    intro r c; simp [gridPixel, blankGrid, pixelOff]
  exact this r c
theorem witness_DrawBeyondMemoryFaults : 0 < (2#4 : Nibble).toNat ∧
    0x1000 < (State.reset.setIdx 0x0FFF#16).idx.toNat + (2#4 : Nibble).toNat := by decide
theorem witness_WhoWritesWhichSlot : (∃ t, exec (.drw 0#4 0#4 0#4) State.reset = .next t) ∧ (∃ t, exec .nop State.reset = .next t) ∧
    ({ State.reset with agenda := [.shared .swap] } : State).nextRequest = .shared .swap ∧
    ({ State.reset with agenda := [.shared .readCurrent] } : State).nextRequest = .shared .readCurrent :=
  ⟨⟨_, rfl⟩, ⟨_, rfl⟩, rfl, rfl⟩
/-- Two swaps in a row; and a step that changes `cur` by a CLS with a swap inside. -/
theorem witness_OnlySwapChangesCurrentSlot :
    (∃ t, step { State.reset with agenda := [.shared .swap, .shared .swap] } = .next t ∧ t.nextRequest = .shared .swap ∧
      t.cur ≠ State.reset.cur) ∧
    ∃ t, step { holding 0x00E0#16 with between := [[.swap]] } = .next t ∧ t.cur ≠ State.reset.cur := by
  refine ⟨⟨_, rfl, rfl, by decide⟩, _, execClsWith_eq _ _ _, ?_⟩
  simp only [setSlot_cur, performAll_cur]
  decide
theorem witness_ReadAnswersCurrentSlot :
    ({ State.reset with agenda := [.shared .readCurrent] } : State).nextRequest = .shared .readCurrent ∧
    ∃ t, step { State.reset with agenda := [.shared .swap, .shared .readCurrent] } = .next t ∧ t.nextRequest = .shared .readCurrent :=
  ⟨rfl, _, rfl, rfl⟩
theorem witness_TicksCountDownToZero :
    ({ State.reset with agenda := [.shared .tick, .shared .tick, .step] } : State).agenda = List.replicate 2 (.shared .tick) ++ [.step] ∧
    ({ State.reset with agenda := [.shared .tick, .shared .tick, .step] } : State).tickStopped = false := ⟨rfl, rfl⟩

/-- A state whose outside agents swap and tick without end. -/
def endless : State := { State.reset with outside := .repeating [.shared .swap, .shared .tick] [], dt := 3#8 }

theorem witness_SwapsAndTicksWithoutEnd : endless.agenda = [] ∧ endless.outside = .repeating [.shared .swap, .shared .tick] [] ∧
    endless.tickStopped = false := ⟨rfl, rfl, rfl⟩
theorem witness_HostTimerPorts : ∀ op : SharedOp, ({ State.reset with agenda := [.shared op] } : State).nextRequest = .shared op :=
  fun _ => rfl
theorem witness_TimersDoNotInfluenceInstructions : Instr.nop ≠ .cls ∧ State.reset.inside = [] := by decide
theorem witness_SharedTransactionsLeavePrivateState :
    ({ State.reset with agenda := [.shared .tick] } : State).nextRequest = .shared .tick ∧ SharedOp.tick ≠ .swap := by decide
theorem witness_LoadRoundTrip : ({ State.reset with agenda := [.load [1#8]] } : State).nextRequest = .load [1#8] ∧
    State.reset.boot = .awaitingLoad ∧ [1#8].length ≤ 3584 ∧ State.reset.mem.wf = true := by decide
/-- Each clause: an image of the largest length, one byte more, and a load after the first cycle. -/
theorem witness_LoadPortAcceptsOrRefuses : State.reset.boot = .awaitingLoad ∧ (List.replicate 3584 0#8).length ≤ 3584 ∧
    3584 < (List.replicate 3585 0#8).length ∧ ({ State.reset with boot := .started } : State).boot ≠ .awaitingLoad :=
  ⟨rfl, by simp, by simp, by decide⟩
theorem witness_CycleEndsLoading : State.reset.CycleDue ∧ ∃ t, step State.reset = .next t := ⟨rfl, _, rfl⟩
/-- Each clause: the two stops as the next request, each stopped schedule with its request next, a step that is no reset, and the
runs of two requests after a stop. -/
theorem witness_StopEndsTheSchedule :
    ({ State.reset with agenda := [.stop .driver] } : State).nextRequest = .stop .driver ∧
    ({ State.reset with agenda := [.stop .ticks] } : State).nextRequest = .stop .ticks ∧
    ((stop .driver State.reset).driverStopped = true ∧ (stop .driver State.reset).CycleDue) ∧
    (({ State.reset with agenda := [.shared .tick], tickStopped := true } : State).tickStopped = true ∧
      ({ State.reset with agenda := [.shared .tick], tickStopped := true } : State).nextRequest = .shared .tick) ∧
    ((∃ t, step (stop .driver State.reset) = .next t) ∧ (stop .driver State.reset).nextRequest ≠ .reset) ∧
    ({ State.reset with agenda := [.stop .driver, .step, .step] } : State).agenda =
      .stop .driver :: (List.replicate 2 .step ++ []) ∧
    ({ State.reset with agenda := [.stop .ticks, .shared .tick, .shared .tick] } : State).agenda =
      .stop .ticks :: (List.replicate 2 (.shared .tick) ++ []) :=
  ⟨rfl, rfl, ⟨rfl, rfl⟩, ⟨rfl, rfl⟩, ⟨⟨_, rfl⟩, by decide⟩, rfl, rfl⟩
/-- The boundary addresses of the two ranges, the last of memory and the first beyond it. -/
theorem witness_ResetMemory : (79 : Nat) < 80 ∧ (80 : Nat) ≤ 80 ∧ (4095 : Nat) < 4096 := by decide
theorem witness_ResetPortRestoresTheBlock : ({ State.reset with agenda := [.reset] } : State).nextRequest = .reset := rfl
theorem witness_FaultedUntilReset : (State.reset.raise .fetchOob 0x1000#16).EndsBadly ∧
    (State.reset.raise .fetchOob 0x1000#16).nextRequest ≠ .reset ∧
    ∃ t, step (State.reset.raise .fetchOob 0x1000#16) = .next t :=
  ⟨⟨_, _, rfl⟩, by decide, _, rfl⟩
theorem witness_StepKeepsInvariant : State.reset.Inv ∧ ∃ t, step State.reset = .next t := by
  refine ⟨⟨rfl, fun k r c => .inl ?_, by decide, rfl, Nat.zero_le _⟩, _, rfl⟩
  cases k <;> simp [State.pixel, State.slot, State.reset, gridPixel, blankGrid]
theorem witness_StepKeepsFaultRecord : (State.reset.setPc 0x0FFF#16).FaultRecord ∧
    ∃ t, step (State.reset.setPc 0x0FFF#16) = .next t ∧ t.status = .faulted .fetchOob 0x0FFF#16 := ⟨trivial, _, rfl, rfl⟩
/-- A state about to take the cycles that a run off the image from `p` needs. -/
def cyclesFrom (p : Half) : State :=
  { State.reset with pc := p, agenda := List.replicate ((0x1000 - p.toNat) / 2 + 1) .step }

/-- The last even pc, the last odd pc and the first pc beyond memory. -/
theorem witness_RunningOffTheImageFaults : ∀ p : Half, p = 0x0FFE#16 ∨ p = 0x0FFF#16 ∨ p = 0x1000#16 →
    (cyclesFrom p).agenda = List.replicate ((0x1000 - (cyclesFrom p).pc.toNat) / 2 + 1) .step ++ [] ∧
    (cyclesFrom p).status = .running ∧ (cyclesFrom p).driverStopped = false ∧ (cyclesFrom p).pc.toNat ≤ 0x1000 ∧
    ∀ a, (cyclesFrom p).pc.toNat ≤ a → a < 0x1000 → (cyclesFrom p).readByte a = some 0#8 := by
  have h : ∀ a, 0x0FFE ≤ a → a < 0x1000 → State.reset.readByte a = some 0#8 := by
    intro a h1 h2
    have : a = 0x0FFE ∨ a = 0x0FFF := by omega
    rcases this with rfl | rfl <;> decide
  rintro p (rfl | rfl | rfl)
  · exact ⟨rfl, rfl, rfl, by decide, fun a h1 h2 => h a h1 h2⟩
  · exact ⟨rfl, rfl, rfl, by decide, fun a h1 h2 => h a (Nat.le_trans (by decide) h1) h2⟩
  · exact ⟨rfl, rfl, rfl, by decide, fun a h1 h2 => h a (Nat.le_trans (by decide) h1) h2⟩

end Sys2Proof.Tests
end

section
/-! PROOFS of the family 10_state.md: what memory holds after reset and which addresses it has (R40). -/

namespace Sys2Proof.Machine

theorem Memory.initial_font {a : Nat} (h : a < fontSize) : Memory.initial a = Config.font ⟨a, h⟩ := dif_pos h

theorem Memory.initial_zero {a : Nat} (h : fontSize ≤ a) : Memory.initial a = 0#8 := dif_neg (Nat.not_lt.mpr h)

/-- Memory after reset lists no address, so each one reads as its reset contents. -/
theorem readByte_reset {a : Nat} (h : a < memSize) : State.reset.readByte a = some (Memory.initial a) := readByte_eq _ h

/-- The addresses of memory are the same in every state: those below `MEM_SIZE`. -/
theorem exists_readByte_iff (s : State) (a : Nat) : (∃ u, s.readByte a = some u) ↔ a < memSize := by
  constructor
  · rintro ⟨u, hu⟩
    by_contra hge
    have hnone : s.readByte a = none := readByte_none s (Nat.le_of_not_lt hge)
    simp [hnone] at hu
  · exact fun h => ⟨_, readByte_eq s h⟩

/-- Settles O53: the font and the zeros are the two cases of the reset contents, and whether an address reads at all does not
depend on the state. -/
theorem resetMemory : Obligations.ResetMemory := by
  refine ⟨fun a ha => ?font, fun a hlo hhi => ?zero, exists_readByte_iff⟩
  case font =>
    have hmem : a < memSize := Nat.lt_trans ha (by decide)
    rw [readByte_reset hmem, Memory.initial_font ha]
  case zero => rw [readByte_reset hhi, Memory.initial_zero hlo]

end Sys2Proof.Machine
end

section
/-! PROOFS of the family 20_memory.md: no instruction writes memory (R54), and what a load leaves in it (R58). -/

namespace Sys2Proof.Machine

/-! ## Who leaves memory alone (R54) -/

/-- A word of class 0xF with a low byte other than those of FX1E and FX65 is unknown (30_encoding.md R79). -/
theorem decode_classF_unknown (x : Nibble) {nn : Byte} (hAdd : nn ≠ 0x1E#8) (hLoad : nn ≠ 0x65#8) :
    decode (wordXNn 0xF#4 x nn) = .unknown (wordXNn 0xF#4 x nn) := by
  have hop : opField (wordXNn 0xF#4 x nn) = 0xF#4 := opField_wordXNn ..
  have hclass : decodeClass (wordXNn 0xF#4 x nn) = decodeClassF (wordXNn 0xF#4 x nn) := by
    rw [decodeClass, hop]
    rfl
  rw [decode_of_op (by rw [hop]; decide), hclass, decodeClassF, nnField_wordXNn, if_neg hAdd, if_neg hLoad]

/-- The memory of the state that an outcome answers is that of the state it is built as. -/
theorem mem_of_next {s t u : State} (h : (.next u : Result State) = .next t) (hu : u.mem = s.mem) : t.mem = s.mem := by
  cases h; exact hu

section
variable {s t : State}

theorem execCls_mem (h : execCls s = .next t) : t.mem = s.mem := by
  rw [execCls_eq] at h
  refine mem_of_next h ?_
  rw [setSlot_mem, (performAll_frame s.inside _).mem, setSlot_mem]

theorem execSubWith_mem {operands : SubOperands} {policy : SubUnderflow} {x y : Nibble}
    (h : execSubWith operands policy x y s = .next t) : t.mem = s.mem := by
  unfold execSubWith at h
  split at h
  · exact mem_of_next h rfl
  · exact mem_of_next h rfl

theorem execDrwWith_mem {clearFlag : Bool} {x y n : Nibble} (h : execDrwWith clearFlag x y n s = .next t) :
    t.mem = s.mem := by
  obtain ⟨-, hdraw⟩ | ⟨-, hfault⟩ := execDrwWith_cases clearFlag x y n s
  · exact mem_of_next (hdraw.symm.trans h) (by rw [setDrawFlag_mem, setSlot_mem])
  · exact mem_of_next (hfault.symm.trans h) (raise_mem ..)

theorem execAddIWith_mem {overflow : IdxOverflow} {x : Nibble} (h : execAddIWith overflow x s = .next t) :
    t.mem = s.mem := by
  obtain ⟨-, hsum⟩ | ⟨-, -, hfault⟩ := execAddIWith_cases overflow x s
  · exact mem_of_next (hsum.symm.trans h) (setIdx_mem ..)
  · exact mem_of_next (hfault.symm.trans h) (raise_mem ..)

theorem execLdVxI_mem {x : Nibble} (h : execLdVxI x s = .next t) : t.mem = s.mem := by
  obtain ⟨-, hload⟩ | ⟨-, hfault⟩ := execLdVxI_cases x s
  · exact mem_of_next (hload.symm.trans h) rfl
  · exact mem_of_next (hfault.symm.trans h) (raise_mem ..)

/-- No instruction has memory among what it changes (R54). -/
theorem exec_mem {i : Instr} (h : exec i s = .next t) : t.mem = s.mem := by
  cases i with
  | nop => exact mem_of_next h rfl
  | cls => exact execCls_mem h
  | jp nnn => exact mem_of_next h (setPc_mem ..)
  | seImm x nn => exact mem_of_next h (skipIf_mem ..)
  | sneImm x nn => exact mem_of_next h (skipIf_mem ..)
  | seReg x y => exact mem_of_next h (skipIf_mem ..)
  | ldImm x nn => exact mem_of_next h (setReg_mem ..)
  | addImm x nn => exact mem_of_next h (setReg_mem ..)
  | ldReg x y => exact mem_of_next h (setReg_mem ..)
  | orReg x y => exact mem_of_next h (setReg_mem ..)
  | andReg x y => exact mem_of_next h (setReg_mem ..)
  | xorReg x y => exact mem_of_next h (setReg_mem ..)
  | addReg x y => exact mem_of_next h (by rw [setReg_mem, setReg_mem])
  | sub x y => exact execSubWith_mem h
  | shr x y => exact mem_of_next h (by rw [setReg_mem, setReg_mem])
  | subn x y => exact mem_of_next h (by rw [setReg_mem, setReg_mem])
  | shl x y => exact mem_of_next h (by rw [setReg_mem, setReg_mem])
  | sneReg x y => exact mem_of_next h (skipIf_mem ..)
  | ldI nnn => exact mem_of_next h (setIdx_mem ..)
  | rnd x nn => exact mem_of_next h (by rw [setReg_mem, takeFree_mem])
  | drw x y n => exact execDrwWith_mem h
  | addI x => exact execAddIWith_mem h
  | ldVxI x => exact execLdVxI_mem h
  | unknown w => exact mem_of_next h (emit_mem ..)

/-- A cycle writes no memory, whether it is disabled, faults on its fetch or executes. -/
theorem cycle_mem (h : cycle s = .next t) : t.mem = s.mem := by
  obtain ⟨-, rfl⟩ | ⟨-, -, -, rfl⟩ | ⟨-, -, -, w, -, hexec⟩ := cycle_next_cases s h
  · rfl
  · exact fetchFault_mem s
  · exact (exec_mem hexec).trans (fetched_mem s)

/-- Of the requests of outside agents the load and the reset alone write memory. -/
theorem perform_mem {r : Request} (h : perform r s = .next t) (hload : ∀ image, r ≠ .load image) (hreset : r ≠ .reset) :
    t.mem = s.mem := by
  cases r with
  | step => exact cycle_mem h
  | shared op => exact mem_of_next h (performShared_frame s op).mem
  | reset => exact absurd rfl hreset
  | load image => exact absurd rfl (hload image)
  | stop which => exact mem_of_next h (stop_mem ..)

end

/-- Settles O34: each instruction keeps `mem`, a cycle is at most one instruction, and of the other requests only the two excepted
ones write. -/
theorem noInstructionWritesMemory : Obligations.NoInstructionWritesMemory := by
  refine ⟨fun i s t h => ?instruction, fun x => ?words, fun s t h hload hreset => ?steps⟩
  case instruction => exact ⟨exec_mem h, readByte_of_mem (exec_mem h)⟩
  case words => exact ⟨decode_classF_unknown x (by decide) (by decide), decode_classF_unknown x (by decide) (by decide)⟩
  case steps => exact (perform_mem h hload hreset).trans (popped_mem s)

/-! ## What a load leaves in memory (R57, R58) -/

/-- A load that the port accepts stores the image's bytes from 0x200 on. -/
theorem step_load_mem {s : State} {image : List Byte} (hreq : s.nextRequest = .load image) (hboot : s.boot = .awaitingLoad)
    (hlen : image.length ≤ maxImage) : ∃ t, step s = .next t ∧ t.mem = s.mem.storeBytes progBase image := by
  have hstep : step s = load image s.popped := step_request s hreq
  obtain ⟨-, -, hok⟩ | ⟨hturn, -⟩ | ⟨-, hlong, -⟩ := load_cases s.popped image
  · exact ⟨_, hstep.trans hok, by rw [emit_mem, popped_mem]⟩
  · exact absurd ((popped_boot s).trans hboot) hturn
  · exact absurd hlen (Nat.not_le.mpr hlong)

section
variable {s t : State} {image : List Byte}

/-- A byte of the image reads back at its own address. -/
theorem readByte_of_loaded (hmem : t.mem = s.mem.storeBytes progBase image) (hlen : progBase + image.length ≤ memSize)
    (hwf : s.mem.wf = true) {k : Nat} (hk : k < image.length) : t.readByte (progBase + k) = some image[k] := by
  have hin : progBase ≤ progBase + k ∧ progBase + k < progBase + image.length := by omega
  rw [readByte_eq t (by omega), hmem, Memory.lookup_storeBytes image _ hlen hwf, dif_pos hin]
  simp only [Nat.add_sub_cancel_left]

/-- A byte outside the image's range reads as before, and an address beyond memory still reads nothing. -/
theorem readByte_of_not_loaded (hmem : t.mem = s.mem.storeBytes progBase image) (hlen : progBase + image.length ≤ memSize)
    (hwf : s.mem.wf = true) {a : Nat} (ha : a < progBase ∨ progBase + image.length ≤ a) : t.readByte a = s.readByte a := by
  have hout : ¬ (progBase ≤ a ∧ a < progBase + image.length) := by omega
  simp only [State.readByte, hmem, Memory.lookup_storeBytes image a hlen hwf, dif_neg hout]

end

/-- Settles O49: the accepted load stores the image at 0x200, and a read after that store sees the image inside its range and the
old byte outside. -/
theorem loadRoundTrip : Obligations.LoadRoundTrip := by
  intro s image hreq hboot hlen hwf
  obtain ⟨t, hstep, hmem⟩ := step_load_mem hreq hboot hlen
  have hfits : progBase + image.length ≤ memSize := Nat.add_le_of_le_sub' (by decide) hlen
  exact ⟨t, hstep, fun _ hk => readByte_of_loaded hmem hfits hwf hk, fun _ ha => readByte_of_not_loaded hmem hfits hwf ha⟩

end Sys2Proof.Machine
end

section
/-! PROOFS of the family 40_cycle.md: what execution does to pc after the fetch has advanced it (R95). -/

namespace Sys2Proof.Machine

/-! ## pc after a jump and after a skip (R100, R101) -/

/-- Extending a 12-bit address to 16 bits keeps its number (R72). -/
theorem zext16_toNat (nnn : Addr12) : (zext16 nnn).toNat = nnn.toNat := BitVec.toNat_setWidth_of_le (by decide)

section
variable (s : State)

/-- pc after a skip that is taken on equal operands. -/
theorem skipIf_beq_pc (a b : Byte) : (s.skipIf (a == b)).pc = if a = b then s.pc + 2#16 else s.pc := by
  simp only [skipIf_pc, beq_iff_eq]

/-- pc after a skip that is taken on unequal operands. -/
theorem skipIf_bne_pc (a b : Byte) : (s.skipIf (a != b)).pc = if a = b then s.pc else s.pc + 2#16 := by
  simp only [skipIf_pc, bne_iff_ne, ne_eq, ite_not]

/-- SUB writes V[F] and then V[x], whatever the operands and the open parameters are (R118, R119). -/
theorem execSubWith_eq_setReg (operands : SubOperands) (policy : SubUnderflow) (x y : Nibble) :
    ∃ flag result, execSubWith operands policy x y s = .next ((s.setReg flagReg flag).setReg x result) := by
  unfold execSubWith
  split
  · exact ⟨_, _, rfl⟩
  · exact ⟨_, _, rfl⟩

end

/-! ## Who leaves pc alone (R95) -/

/-- The pc of the state that an outcome answers is that of the state it is built as. -/
theorem pc_of_next {t u : State} {a : Half} (h : (.next u : Result State) = .next t) (hu : u.pc = a) : t.pc = a := by
  cases h; exact hu

section
variable {s t : State}

theorem execCls_pc (h : execCls s = .next t) : t.pc = s.pc := by
  rw [execCls_eq] at h
  refine pc_of_next h ?_
  rw [setSlot_pc, (performAll_frame s.inside _).pc, setSlot_pc]

theorem execSubWith_pc {operands : SubOperands} {policy : SubUnderflow} {x y : Nibble}
    (h : execSubWith operands policy x y s = .next t) : t.pc = s.pc := by
  obtain ⟨flag, result, hsub⟩ := execSubWith_eq_setReg s operands policy x y
  exact pc_of_next (hsub.symm.trans h) (by rw [setReg_pc, setReg_pc])

theorem execDrwWith_pc {clearFlag : Bool} {x y n : Nibble} (h : execDrwWith clearFlag x y n s = .next t) : t.pc = s.pc := by
  obtain ⟨-, hdraw⟩ | ⟨-, hfault⟩ := execDrwWith_cases clearFlag x y n s
  · exact pc_of_next (hdraw.symm.trans h) (by rw [setDrawFlag_pc, setSlot_pc])
  · exact pc_of_next (hfault.symm.trans h) (raise_pc ..)

theorem execAddIWith_pc {overflow : IdxOverflow} {x : Nibble} (h : execAddIWith overflow x s = .next t) : t.pc = s.pc := by
  obtain ⟨-, hsum⟩ | ⟨-, -, hfault⟩ := execAddIWith_cases overflow x s
  · exact pc_of_next (hsum.symm.trans h) (setIdx_pc ..)
  · exact pc_of_next (hfault.symm.trans h) (raise_pc ..)

theorem execLdVxI_pc {x : Nibble} (h : execLdVxI x s = .next t) : t.pc = s.pc := by
  obtain ⟨-, hload⟩ | ⟨-, hfault⟩ := execLdVxI_cases x s
  · exact pc_of_next (hload.symm.trans h) rfl
  · exact pc_of_next (hfault.symm.trans h) (raise_pc ..)

end

/-- Settles O17, by cases on the instruction: the jump sets pc, a skip advances it or leaves it, and no other instruction has pc
among what it changes, whether it ends well or faults. -/
theorem pcChangesOnlyByJumpAndSkip : Obligations.PcChangesOnlyByJumpAndSkip := by
  intro i s t h
  cases i with
  | jp nnn =>
    have hpc : t.pc = zext16 nnn := pc_of_next h (setPc_pc ..)
    exact hpc ▸ zext16_toNat nnn
  | seImm x nn => exact pc_of_next h (skipIf_beq_pc ..)
  | sneImm x nn => exact pc_of_next h (skipIf_bne_pc ..)
  | seReg x y => exact pc_of_next h (skipIf_beq_pc ..)
  | sneReg x y => exact pc_of_next h (skipIf_bne_pc ..)
  | nop => exact pc_of_next h rfl
  | cls => exact execCls_pc h
  | ldImm x nn => exact pc_of_next h (setReg_pc ..)
  | addImm x nn => exact pc_of_next h (setReg_pc ..)
  | ldReg x y => exact pc_of_next h (setReg_pc ..)
  | orReg x y => exact pc_of_next h (setReg_pc ..)
  | andReg x y => exact pc_of_next h (setReg_pc ..)
  | xorReg x y => exact pc_of_next h (setReg_pc ..)
  | addReg x y => exact pc_of_next h (by rw [setReg_pc, setReg_pc])
  | sub x y => exact execSubWith_pc h
  | shr x y => exact pc_of_next h (by rw [setReg_pc, setReg_pc])
  | subn x y => exact pc_of_next h (by rw [setReg_pc, setReg_pc])
  | shl x y => exact pc_of_next h (by rw [setReg_pc, setReg_pc])
  | ldI nnn => exact pc_of_next h (setIdx_pc ..)
  | rnd x nn => exact pc_of_next h (by rw [setReg_pc, takeFree_pc])
  | drw x y n => exact execDrwWith_pc h
  | addI x => exact execAddIWith_pc h
  | ldVxI x => exact execLdVxI_pc h
  | unknown w => exact pc_of_next h (emit_pc ..)

end Sys2Proof.Machine
end

section
/-! PROOFS of the family 41_control_flow.md: the jump and the skips on an immediate (R101 to R103). -/

namespace Sys2Proof.Machine

/-! ## Their words (30_encoding.md R76) -/

theorem decode_wordNnn_jp (nnn : Addr12) : decode (wordNnn 0x1#4 nnn) = .jp nnn := by
  rw [decode_of_op (by rw [opField_wordNnn]; decide), decodeClass, opField_wordNnn]
  exact congrArg Instr.jp (nnnField_wordNnn ..)

theorem decode_wordXNn_seImm (x : Nibble) (nn : Byte) : decode (wordXNn 0x3#4 x nn) = .seImm x nn := by
  rw [decode_of_op (by rw [opField_wordXNn]; decide), decodeClass, opField_wordXNn]
  exact congrArg₂ Instr.seImm (xField_wordXNn ..) (nnField_wordXNn ..)

theorem decode_wordXNn_sneImm (x : Nibble) (nn : Byte) : decode (wordXNn 0x4#4 x nn) = .sneImm x nn := by
  rw [decode_of_op (by rw [opField_wordXNn]; decide), decodeClass, opField_wordXNn]
  exact congrArg₂ Instr.sneImm (xField_wordXNn ..) (nnField_wordXNn ..)

/-! ## A cycle due beyond memory (40_cycle.md R91) -/

section
variable (s : State)

/-- Which request comes next does not depend on pc. -/
theorem setPc_cycleDue (a : Half) : (s.setPc a).CycleDue ↔ s.CycleDue := Iff.rfl

/-- A word whose second byte is beyond memory is not fetched. -/
theorem fetchWord_beyond (h : memSize ≤ s.pc.toNat + 1) : s.fetchWord = none := by
  obtain ⟨hin, -⟩ | ⟨-, hnone⟩ := fetchWord_cases s
  · exact absurd h (Nat.not_le.mpr hin)
  · exact hnone

/-- An enabled cycle with no whole word at pc is a fetch fault. -/
theorem step_fetchFault (hdue : s.CycleDue) (hrun : s.status = .running) (hdrv : s.driverStopped = false)
    (hpc : memSize ≤ s.pc.toNat + 1) : step s = .next s.popped.fetchFault := by
  rw [step_cycle s hdue]
  refine cycle_fetchFault _ ⟨?_, ?_⟩ ?_
  · rw [popped_status, hrun]
  · rw [popped_driverStopped, hdrv]
  · rw [popped_fetchWord, fetchWord_beyond s hpc]

/-- After a jump to the last address of memory only one byte is left to fetch (R101, R107). -/
theorem step_setPc_last (hdue : s.CycleDue) (hrun : s.status = .running) (hdrv : s.driverStopped = false) :
    ∃ u, step (s.setPc 0x0FFF#16) = .next u ∧ u.status = .faulted .fetchOob 0x0FFF#16 := by
  have hdue' : (s.setPc 0x0FFF#16).CycleDue := (setPc_cycleDue s _).mpr hdue
  exact ⟨_, step_fetchFault _ hdue' hrun hdrv (by rw [setPc_pc]; decide), by rw [fetchFault_status, popped_pc, setPc_pc]⟩

end

/-- Settles O13: the jump is one write to pc, and at the one target where no whole word can be fetched the next enabled cycle
faults. -/
theorem jumpSetsPc : Obligations.JumpSetsPc := by
  refine fun nnn s => ⟨decode_wordNnn_jp nnn, s.setPc (zext16 nnn), rfl, zext16_toNat nnn, rfl, ?last⟩
  case last =>
    rintro rfl hdue hrun hdrv
    exact step_setPc_last s hdue hrun hdrv

/-- Settles O14: each skip is `skipIf` on the comparison, which has only pc among what it changes. -/
theorem skipsOnImmediate : Obligations.SkipsOnImmediate := by
  refine fun x nn s => ⟨decode_wordXNn_seImm x nn, decode_wordXNn_sneImm x nn, ?equal, ?different⟩
  case equal => exact ⟨s.skipIf (s.reg x == nn), rfl, skipIf_beq_pc .., skipIf_reg .., skipIf_status ..⟩
  case different => exact ⟨s.skipIf (s.reg x != nn), rfl, skipIf_bne_pc .., skipIf_reg .., skipIf_status ..⟩

end Sys2Proof.Machine
end

section
/-! PROOFS of the family 42_alu.md: the loads, the clamped sum, the bitwise operations and the right shift (R111 to R116, R121). -/

namespace Sys2Proof.Machine

/-! ## Their words (30_encoding.md R76, R78) -/

theorem decode_wordXNn_ldImm (x : Nibble) (nn : Byte) : decode (wordXNn 0x6#4 x nn) = .ldImm x nn := by
  rw [decode_of_op (by rw [opField_wordXNn]; decide), decodeClass, opField_wordXNn]
  exact congrArg₂ Instr.ldImm (xField_wordXNn ..) (nnField_wordXNn ..)

theorem decode_wordXNn_addImm (x : Nibble) (nn : Byte) : decode (wordXNn 0x7#4 x nn) = .addImm x nn := by
  rw [decode_of_op (by rw [opField_wordXNn]; decide), decodeClass, opField_wordXNn]
  exact congrArg₂ Instr.addImm (xField_wordXNn ..) (nnField_wordXNn ..)

/-- A word of class 0x8 is the instruction that the secondary dispatch gives for its low nibble, on its own `x` and `y`. -/
theorem decode_wordXYN_class8 (x y : Nibble) {n : Nibble} {instr : Nibble → Nibble → Instr}
    (h : ∀ w, nField w = n → decodeClass8 w = instr (xField w) (yField w)) :
    decode (wordXYN 0x8#4 x y n) = instr x y := by
  have hop : opField (wordXYN 0x8#4 x y n) = 0x8#4 := opField_wordXYN ..
  have hclass : decodeClass (wordXYN 0x8#4 x y n) = decodeClass8 (wordXYN 0x8#4 x y n) := by
    rw [decodeClass, hop]
    rfl
  rw [decode_of_op (by rw [hop]; decide), hclass, h _ (nField_wordXYN ..), xField_wordXYN, yField_wordXYN]

theorem decode_wordXYN_ldReg (x y : Nibble) : decode (wordXYN 0x8#4 x y 0x0#4) = .ldReg x y :=
  decode_wordXYN_class8 x y fun w hn => by rw [decodeClass8, hn]; rfl

theorem decode_wordXYN_orReg (x y : Nibble) : decode (wordXYN 0x8#4 x y 0x1#4) = .orReg x y :=
  decode_wordXYN_class8 x y fun w hn => by rw [decodeClass8, hn]; rfl

theorem decode_wordXYN_andReg (x y : Nibble) : decode (wordXYN 0x8#4 x y 0x2#4) = .andReg x y :=
  decode_wordXYN_class8 x y fun w hn => by rw [decodeClass8, hn]; rfl

theorem decode_wordXYN_xorReg (x y : Nibble) : decode (wordXYN 0x8#4 x y 0x3#4) = .xorReg x y :=
  decode_wordXYN_class8 x y fun w hn => by rw [decodeClass8, hn]; rfl

theorem decode_wordXYN_shr (x y : Nibble) : decode (wordXYN 0x8#4 x y 0x6#4) = .shr x y :=
  decode_wordXYN_class8 x y fun w hn => by rw [decodeClass8, hn]; rfl

/-! ## The arithmetic primitives as numbers (00_scope.md R19, R21) -/

/-- The clamped sum fits a byte, so the byte is that number. -/
theorem satadd8_toNat (a b : Byte) : (satadd8 a b).toNat = min (a.toNat + b.toNat) 255 :=
  Nat.mod_eq_of_lt (Nat.lt_succ_of_le (Nat.min_le_right ..))

theorem shr1_toNat (v : Byte) : (shr1 v).toNat = v.toNat / 2 := by
  rw [shr1, BitVec.toNat_ushiftRight, Nat.shiftRight_one]

theorem shrFlag_toNat (v : Byte) : (shrFlag v).toNat = v.toNat % 2 :=
  (BitVec.toNat_and ..).trans (Nat.and_one_is_mod _)

/-! ## Writes to V[x] and to V[F] -/

section
variable (s : State) {x : Nibble}

/-- A write to V[x] leaves V[F] alone unless V[F] is the destination (R110). -/
theorem setReg_reg_flag (b : Byte) (h : x ≠ 0xF#4) : (s.setReg x b).reg 0xF#4 = s.reg 0xF#4 := reg_setReg_of_ne s b h.symm

/-- A flag write after a write to V[x] leaves the result in V[x] unless V[F] is the destination (R121). -/
theorem setReg_setFlag_reg (b flag : Byte) (h : x ≠ 0xF#4) : ((s.setReg x b).setReg flagReg flag).reg x = b := by
  rw [reg_setReg_of_ne _ flag h, reg_setReg_self]

end

/-! ## The obligations -/

/-- Settles O20: the instruction is one write of the clamped sum to V[x]. -/
theorem addImmediateSaturates : Obligations.AddImmediateSaturates := by
  refine fun x nn s => ⟨decode_wordXNn_addImm x nn, s.setReg x (satadd8 (s.reg x) nn), rfl, ?sum, setReg_reg_flag s _,
    setReg_status ..⟩
  case sum => rw [reg_setReg_self, satadd8_toNat]

/-- Settles O21: each instruction is one write of the bitwise result to V[x], and bit `k` of the result comes from bit `k` of the
operands. -/
theorem logicBitwise : Obligations.LogicBitwise := by
  refine fun x y s => ⟨decode_wordXYN_orReg x y, decode_wordXYN_andReg x y, decode_wordXYN_xorReg x y, ?or, ?and, ?xor⟩
  case or =>
    refine ⟨s.setReg x (s.reg x ||| s.reg y), rfl, fun k _ => ?_, setReg_reg_flag s _, setReg_status ..⟩
    rw [reg_setReg_self, BitVec.getLsbD_or]
  case and =>
    refine ⟨s.setReg x (s.reg x &&& s.reg y), rfl, fun k _ => ?_, setReg_reg_flag s _, setReg_status ..⟩
    rw [reg_setReg_self, BitVec.getLsbD_and]
  case xor =>
    refine ⟨s.setReg x (s.reg x ^^^ s.reg y), rfl, fun k _ => ?_, setReg_reg_flag s _, setReg_status ..⟩
    rw [reg_setReg_self, BitVec.getLsbD_xor]

/-- Settles O25: V[y] is read before both writes, the half goes to V[x] and the flag write comes last. -/
theorem shiftRightTakesVy : Obligations.ShiftRightTakesVy := by
  refine fun x y s => ⟨decode_wordXYN_shr x y, (s.setReg x (shr1 (s.reg y))).setReg flagReg (shrFlag (s.reg y)), rfl,
    fun hx => ?half, ?flag, ?status⟩
  case half => rw [setReg_setFlag_reg s _ _ hx, shr1_toNat]
  case flag => exact (congrArg BitVec.toNat (reg_setReg_self ..)).trans (shrFlag_toNat _)
  case status => rw [setReg_status, setReg_status]

/-- Settles O19: each instruction is one write to V[x]. -/
theorem loadImmediateAndMove : Obligations.LoadImmediateAndMove := by
  refine fun x y nn s => ⟨decode_wordXNn_ldImm x nn, decode_wordXYN_ldReg x y, ?immediate, ?move⟩
  case immediate => exact ⟨s.setReg x nn, rfl, reg_setReg_self .., setReg_reg_flag s _, setReg_status ..⟩
  case move => exact ⟨s.setReg x (s.reg y), rfl, reg_setReg_self .., setReg_reg_flag s _, setReg_status ..⟩

end Sys2Proof.Machine
end

section
/-! PROOFS of the family 43_index_memory.md: the load of the index register (R130). -/

namespace Sys2Proof.Machine

/-! ## Its word (30_encoding.md R76) -/

theorem decode_wordNnn_ldI (nnn : Addr12) : decode (wordNnn 0xA#4 nnn) = .ldI nnn := by
  rw [decode_of_op (by rw [opField_wordNnn]; decide), decodeClass, opField_wordNnn]
  exact congrArg Instr.ldI (nnnField_wordNnn ..)

/-! ## The obligation -/

/-- Settles O31: the instruction is one write of the zero-extended operand to idx, with no check that could fail, and the write
leaves V[F] and the status alone. -/
theorem loadIndex : Obligations.LoadIndex := by
  refine fun nnn s => ⟨decode_wordNnn_ldI nnn, s.setIdx (zext16 nnn), rfl, ?idx, setIdx_reg .., setIdx_status ..⟩
  case idx => rw [setIdx_idx, zext16_toNat]

end Sys2Proof.Machine
end

section
/-! PROOFS of the family 44_display.md: who writes which framebuffer slot (R155). -/

namespace Sys2Proof.Machine

/-! ## Which updates leave the slots alone -/

section
variable (s : State) (k : Slot)

@[simp] theorem setReg_slot (r : Nibble) (b : Byte) : (s.setReg r b).slot k = s.slot k := rfl
@[simp] theorem setPc_slot (a : Half) : (s.setPc a).slot k = s.slot k := rfl
@[simp] theorem setIdx_slot (a : Half) : (s.setIdx a).slot k = s.slot k := rfl
@[simp] theorem raise_slot (c : Cause) (a : Half) : (s.raise c a).slot k = s.slot k := rfl
@[simp] theorem emit_slot (o : Output) : (s.emit o).slot k = s.slot k := rfl
@[simp] theorem takeFree_slot : s.takeFree.slot k = s.slot k := rfl
@[simp] theorem skipIf_slot (c : Bool) : (s.skipIf c).slot k = s.slot k := by cases c <;> rfl
@[simp] theorem setDrawFlag_slot (c d : Bool) : (s.setDrawFlag c d).slot k = s.slot k := by cases c <;> cases d <;> rfl

end

/-! ## Which instructions leave the slots alone -/

/-- A slot of the state that an outcome answers is that of the state it is built as. -/
theorem slot_of_next {s t u : State} {k : Slot} (h : (.next u : Result State) = .next t) (hu : u.slot k = s.slot k) :
    t.slot k = s.slot k := by
  cases h; exact hu

section
variable {s t : State}

theorem execSubWith_slot {operands : SubOperands} {policy : SubUnderflow} {x y : Nibble}
    (h : execSubWith operands policy x y s = .next t) (k : Slot) : t.slot k = s.slot k := by
  obtain ⟨flag, result, hsub⟩ := execSubWith_eq_setReg s operands policy x y
  exact slot_of_next (hsub.symm.trans h) (by rw [setReg_slot, setReg_slot])

theorem execAddIWith_slot {overflow : IdxOverflow} {x : Nibble} (h : execAddIWith overflow x s = .next t) (k : Slot) :
    t.slot k = s.slot k := by
  obtain ⟨-, hsum⟩ | ⟨-, -, hfault⟩ := execAddIWith_cases overflow x s
  · exact slot_of_next (hsum.symm.trans h) (setIdx_slot ..)
  · exact slot_of_next (hfault.symm.trans h) (raise_slot ..)

theorem execLdVxI_slot {x : Nibble} (h : execLdVxI x s = .next t) (k : Slot) : t.slot k = s.slot k := by
  obtain ⟨-, hload⟩ | ⟨-, hfault⟩ := execLdVxI_cases x s
  · exact slot_of_next (hload.symm.trans h) rfl
  · exact slot_of_next (hfault.symm.trans h) (raise_slot ..)

/-- The draw is into the slot that is not current, and its fault writes no pixel. -/
theorem execDrwWith_slot_cur {clearFlag : Bool} {x y n : Nibble} (h : execDrwWith clearFlag x y n s = .next t) :
    t.slot s.cur = s.slot s.cur := by
  obtain ⟨-, hdraw⟩ | ⟨-, hfault⟩ := execDrwWith_cases clearFlag x y n s
  · exact slot_of_next (hdraw.symm.trans h) (by rw [setDrawFlag_slot, setSlot_slot, if_neg (ne_otherSlot s.cur)])
  · exact slot_of_next (hfault.symm.trans h) (raise_slot ..)

/-- No instruction but CLS and DRW has a slot among what it changes. -/
theorem exec_slot {i : Instr} (h : exec i s = .next t) (hcls : i ≠ .cls) (hdrw : ∀ x y n, i ≠ .drw x y n) (k : Slot) :
    t.slot k = s.slot k := by
  cases i with
  | cls => exact absurd rfl hcls
  | drw x y n => exact absurd rfl (hdrw x y n)
  | nop => exact slot_of_next h rfl
  | jp nnn => exact slot_of_next h (setPc_slot ..)
  | seImm x nn => exact slot_of_next h (skipIf_slot ..)
  | sneImm x nn => exact slot_of_next h (skipIf_slot ..)
  | seReg x y => exact slot_of_next h (skipIf_slot ..)
  | sneReg x y => exact slot_of_next h (skipIf_slot ..)
  | ldImm x nn => exact slot_of_next h (setReg_slot ..)
  | addImm x nn => exact slot_of_next h (setReg_slot ..)
  | ldReg x y => exact slot_of_next h (setReg_slot ..)
  | orReg x y => exact slot_of_next h (setReg_slot ..)
  | andReg x y => exact slot_of_next h (setReg_slot ..)
  | xorReg x y => exact slot_of_next h (setReg_slot ..)
  | addReg x y => exact slot_of_next h (by rw [setReg_slot, setReg_slot])
  | sub x y => exact execSubWith_slot h k
  | shr x y => exact slot_of_next h (by rw [setReg_slot, setReg_slot])
  | subn x y => exact slot_of_next h (by rw [setReg_slot, setReg_slot])
  | shl x y => exact slot_of_next h (by rw [setReg_slot, setReg_slot])
  | ldI nnn => exact slot_of_next h (setIdx_slot ..)
  | rnd x nn => exact slot_of_next h (by rw [setReg_slot, takeFree_slot])
  | addI x => exact execAddIWith_slot h k
  | ldVxI x => exact execLdVxI_slot h k
  | unknown w => exact slot_of_next h (emit_slot ..)

end

/-! ## The presentation consumer's operations (R144, R145) -/

section
variable {s : State}

theorem step_swap (h : s.nextRequest = .shared .swap) : step s = .next { s.popped with cur := otherSlot s.cur } := by
  have hstep : step s = .next { s.popped with cur := otherSlot s.popped.cur } := step_request s h
  rw [hstep, popped_cur]

theorem step_readCurrent (h : s.nextRequest = .shared .readCurrent) :
    step s = .next (s.popped.emit (.frame (s.slot s.cur))) := by
  have hstep : step s = .next (s.popped.emit (.frame (s.popped.slot s.popped.cur))) := step_request s h
  rw [hstep, popped_slot, popped_cur]

end

/-! ## The obligation -/

/-- Settles O41: the draw goes into the slot that is not current, every other instruction but CLS leaves both slots alone, and the
consumer's two operations are the flip of `cur` and one output. -/
theorem whoWritesWhichSlot : Obligations.WhoWritesWhichSlot := by
  refine ⟨fun i s t h hcls => ?instruction, fun s => ⟨step_swap, fun hread => ⟨_, step_readCurrent hread, rfl⟩⟩⟩
  case instruction =>
    by_cases hdrw : ∀ x y n, i ≠ .drw x y n
    · exact ⟨exec_slot h hcls hdrw s.cur, fun _ => exec_slot h hcls hdrw⟩
    · obtain ⟨x, y, n, rfl⟩ : ∃ x y n, i = .drw x y n := by simpa only [not_forall, not_not] using hdrw
      exact ⟨execDrwWith_slot_cur h, fun hother => absurd hother hdrw⟩

end Sys2Proof.Machine
end

section
/-! PROOFS about the instruction word (30_encoding.md): what each word decodes to, said once as `DecodesAs`, and the decoder
against the encoder, the unknown-opcode space and the opcode table. -/

namespace Sys2Proof

/-! ## The unknown-opcode space by fields (R81) -/

/-- The low nibbles of class 0x8 that name no operation (R78). -/
def unusedLow : List Nibble := [0x8#4, 0x9#4, 0xA#4, 0xB#4, 0xC#4, 0xD#4, 0xF#4]

section
variable (w : Half)

theorem opField_toNat : (opField w).toNat = w.toNat / 0x1000 := by
  have hw : w.toNat < 2 ^ 16 := w.isLt
  simp only [opField, BitVec.extractLsb'_toNat, Nat.shiftRight_eq_div_pow]
  omega

theorem nnField_toNat : (nnField w).toNat = w.toNat % 0x100 := by simp [nnField, BitVec.extractLsb'_toNat]

theorem nField_toNat : (nField w).toNat = w.toNat % 0x10 := by simp [nField, BitVec.extractLsb'_toNat]

/-- The four lines of R81 on the word's fields. -/
theorem inUnknownSpace_iff : inUnknownSpace w = true ↔
    opField w ∈ [0x2#4, 0xB#4, 0xE#4] ∨ (opField w = 0x0#4 ∧ w ≠ 0x0000#16 ∧ nnField w ≠ 0xE0#8) ∨
    (opField w = 0x8#4 ∧ nField w ∈ unusedLow) ∨ (opField w = 0xF#4 ∧ nnField w ≠ 0x1E#8 ∧ nnField w ≠ 0x65#8) := by
  simp [inUnknownSpace, unusedLow, ← opField_toNat, ← nnField_toNat, ← nField_toNat, ← BitVec.toNat_inj, or_assoc, and_assoc]

end

/-! ## What a word decodes to -/

/-- The decoder's answers, each with the fields of the words that it is given for (R75 to R79, R81). -/
inductive DecodesAs (w : Half) : Instr → Prop
  | nop (hw : w = 0x0000#16) : DecodesAs w .nop
  | cls (hop : opField w = 0x0#4) (hnn : nnField w = 0xE0#8) : DecodesAs w .cls
  | jp (hop : opField w = 0x1#4) : DecodesAs w (.jp (nnnField w))
  | seImm (hop : opField w = 0x3#4) : DecodesAs w (.seImm (xField w) (nnField w))
  | sneImm (hop : opField w = 0x4#4) : DecodesAs w (.sneImm (xField w) (nnField w))
  | seReg (hop : opField w = 0x5#4) : DecodesAs w (.seReg (xField w) (yField w))
  | ldImm (hop : opField w = 0x6#4) : DecodesAs w (.ldImm (xField w) (nnField w))
  | addImm (hop : opField w = 0x7#4) : DecodesAs w (.addImm (xField w) (nnField w))
  | ldReg (hop : opField w = 0x8#4) (hn : nField w = 0x0#4) : DecodesAs w (.ldReg (xField w) (yField w))
  | orReg (hop : opField w = 0x8#4) (hn : nField w = 0x1#4) : DecodesAs w (.orReg (xField w) (yField w))
  | andReg (hop : opField w = 0x8#4) (hn : nField w = 0x2#4) : DecodesAs w (.andReg (xField w) (yField w))
  | xorReg (hop : opField w = 0x8#4) (hn : nField w = 0x3#4) : DecodesAs w (.xorReg (xField w) (yField w))
  | addReg (hop : opField w = 0x8#4) (hn : nField w = 0x4#4) : DecodesAs w (.addReg (xField w) (yField w))
  | sub (hop : opField w = 0x8#4) (hn : nField w = 0x5#4) : DecodesAs w (.sub (xField w) (yField w))
  | shr (hop : opField w = 0x8#4) (hn : nField w = 0x6#4) : DecodesAs w (.shr (xField w) (yField w))
  | subn (hop : opField w = 0x8#4) (hn : nField w = 0x7#4) : DecodesAs w (.subn (xField w) (yField w))
  | shl (hop : opField w = 0x8#4) (hn : nField w = 0xE#4) : DecodesAs w (.shl (xField w) (yField w))
  | sneReg (hop : opField w = 0x9#4) : DecodesAs w (.sneReg (xField w) (yField w))
  | ldI (hop : opField w = 0xA#4) : DecodesAs w (.ldI (nnnField w))
  | rnd (hop : opField w = 0xC#4) : DecodesAs w (.rnd (xField w) (nnField w))
  | drw (hop : opField w = 0xD#4) : DecodesAs w (.drw (xField w) (yField w) (nField w))
  | addI (hop : opField w = 0xF#4) (hnn : nnField w = 0x1E#8) : DecodesAs w (.addI (xField w))
  | ldVxI (hop : opField w = 0xF#4) (hnn : nnField w = 0x65#8) : DecodesAs w (.ldVxI (xField w))
  | unknownClass (hop : opField w ∈ [0x2#4, 0xB#4, 0xE#4]) : DecodesAs w (.unknown w)
  | unknownZero (hop : opField w = 0x0#4) (hw : w ≠ 0x0000#16) (hnn : nnField w ≠ 0xE0#8) : DecodesAs w (.unknown w)
  | unknownLow (hop : opField w = 0x8#4) (hn : nField w ∈ unusedLow) : DecodesAs w (.unknown w)
  | unknownByte (hop : opField w = 0xF#4) (hadd : nnField w ≠ 0x1E#8) (hload : nnField w ≠ 0x65#8) :
      DecodesAs w (.unknown w)

/-- A field of four bits by its sixteen values. -/
theorem nibble_cases {P : Nibble → Prop} (h0 : P 0x0#4) (h1 : P 0x1#4) (h2 : P 0x2#4) (h3 : P 0x3#4) (h4 : P 0x4#4)
    (h5 : P 0x5#4) (h6 : P 0x6#4) (h7 : P 0x7#4) (h8 : P 0x8#4) (h9 : P 0x9#4) (hA : P 0xA#4) (hB : P 0xB#4) (hC : P 0xC#4)
    (hD : P 0xD#4) (hE : P 0xE#4) (hF : P 0xF#4) (n : Nibble) : P n := by
  have hall : ∀ n : Nibble, n ∈ [0x0#4, 0x1#4, 0x2#4, 0x3#4, 0x4#4, 0x5#4, 0x6#4, 0x7#4, 0x8#4, 0x9#4, 0xA#4, 0xB#4, 0xC#4,
      0xD#4, 0xE#4, 0xF#4] := by decide
  have hmem := hall n
  simp only [List.mem_cons, List.not_mem_nil, or_false] at hmem
  rcases hmem with rfl | rfl | rfl | rfl | rfl | rfl | rfl | rfl | rfl | rfl | rfl | rfl | rfl | rfl | rfl | rfl <;> assumption

section
variable {w : Half}

theorem decodeClass0_decodesAs (hop : opField w = 0x0#4) (hw : w ≠ 0x0000#16) : DecodesAs w (decodeClass0 w) := by
  unfold decodeClass0
  split
  · exact .cls hop ‹_›
  · exact .unknownZero hop hw ‹_›

theorem decodeClass8_decodesAs (hop : opField w = 0x8#4) : DecodesAs w (decodeClass8 w) := by
  generalize hn : nField w = n
  rw [decodeClass8, hn]
  have hunused (hmem : n ∈ unusedLow) : DecodesAs w (.unknown w) := .unknownLow hop (hn ▸ hmem)
  cases n using nibble_cases with
  | h0 => exact .ldReg hop hn
  | h1 => exact .orReg hop hn
  | h2 => exact .andReg hop hn
  | h3 => exact .xorReg hop hn
  | h4 => exact .addReg hop hn
  | h5 => exact .sub hop hn
  | h6 => exact .shr hop hn
  | h7 => exact .subn hop hn
  | hE => exact .shl hop hn
  | _ => exact hunused (by decide)

theorem decodeClassF_decodesAs (hop : opField w = 0xF#4) : DecodesAs w (decodeClassF w) := by
  unfold decodeClassF
  split
  · exact .addI hop ‹_›
  · split
    · exact .ldVxI hop ‹_›
    · exact .unknownByte hop ‹_› ‹_›

theorem decodeClass_decodesAs (hw : w ≠ 0x0000#16) : DecodesAs w (decodeClass w) := by
  generalize hop : opField w = op
  rw [decodeClass, hop]
  have hunused (hmem : op ∈ [0x2#4, 0xB#4, 0xE#4]) : DecodesAs w (.unknown w) := .unknownClass (hop ▸ hmem)
  cases op using nibble_cases with
  | h0 => exact decodeClass0_decodesAs hop hw
  | h1 => exact .jp hop
  | h3 => exact .seImm hop
  | h4 => exact .sneImm hop
  | h5 => exact .seReg hop
  | h6 => exact .ldImm hop
  | h7 => exact .addImm hop
  | h8 => exact decodeClass8_decodesAs hop
  | h9 => exact .sneReg hop
  | hA => exact .ldI hop
  | hC => exact .rnd hop
  | hD => exact .drw hop
  | hF => exact decodeClassF_decodesAs hop
  | _ => exact hunused (by decide)

end

/-- Everything a word can decode to (R74). -/
theorem decode_decodesAs (w : Half) : DecodesAs w (decode w) := by
  unfold decode
  split
  · exact .nop ‹_›
  · exact decodeClass_decodesAs ‹_›

/-! ## The unknown-opcode space (R81) -/

section
variable {w : Half}

/-- The word that an unknown no-op carries is the decoded one, and it is in the unknown-opcode space. -/
theorem DecodesAs.of_unknown {u : Half} (h : DecodesAs w (.unknown u)) : u = w ∧ inUnknownSpace w = true := by
  rw [inUnknownSpace_iff]
  cases h with
  | unknownClass hop => exact ⟨rfl, .inl hop⟩
  | unknownZero hop hw hnn => exact ⟨rfl, .inr (.inl ⟨hop, hw, hnn⟩)⟩
  | unknownLow hop hn => exact ⟨rfl, .inr (.inr (.inl ⟨hop, hn⟩))⟩
  | unknownByte hop hadd hload => exact ⟨rfl, .inr (.inr (.inr ⟨hop, hadd, hload⟩))⟩

theorem decodeClass8_unusedLow (hn : nField w ∈ unusedLow) : decodeClass8 w = .unknown w := by
  unfold decodeClass8
  simp only [unusedLow, List.mem_cons, List.not_mem_nil, or_false] at hn
  rcases hn with hn | hn | hn | hn | hn | hn | hn <;> rw [hn] <;> rfl

theorem decode_of_inUnknownSpace (h : inUnknownSpace w = true) : decode w = .unknown w := by
  obtain hop | ⟨hop, hw, hnn⟩ | ⟨hop, hn⟩ | ⟨hop, hadd, hload⟩ := (inUnknownSpace_iff w).mp h
  · simp only [List.mem_cons, List.not_mem_nil, or_false] at hop
    rcases hop with hop | hop | hop <;> rw [decode_of_op (by rw [hop]; decide), decodeClass, hop] <;> rfl
  · have hclass : decodeClass w = decodeClass0 w := by rw [decodeClass, hop]; rfl
    rw [decode, if_neg hw, hclass, decodeClass0, if_neg hnn]
  · have hclass : decodeClass w = decodeClass8 w := by rw [decodeClass, hop]; rfl
    rw [decode_of_op (by rw [hop]; decide), hclass, decodeClass8_unusedLow hn]
  · have hclass : decodeClass w = decodeClassF w := by rw [decodeClass, hop]; rfl
    rw [decode_of_op (by rw [hop]; decide), hclass, decodeClassF, if_neg hadd, if_neg hload]

end

/-- Settles O4: the decoder's unknown answers are those of the four lines of R81, and each carries the word itself. -/
theorem unknownExactlyOnUnknownSpace : Obligations.UnknownExactlyOnUnknownSpace := by
  refine fun w => ⟨⟨fun h => ?space, decode_of_inUnknownSpace⟩, fun u h => ?word⟩
  case space => exact (h ▸ decode_decodesAs w).of_unknown.2
  case word => exact (h ▸ decode_decodesAs w).of_unknown.1

end Sys2Proof
end

section
/-! PROOFS of the decoder against the encoder (30_encoding.md R84, R85). -/

namespace Sys2Proof

/-! ## Words equal by their fields -/

section
variable {u w : Half}

/-- A word is its four nibbles. -/
theorem word_ext_xyn (hop : opField u = opField w) (hx : xField u = xField w) (hy : yField u = yField w)
    (hn : nField u = nField w) : u = w := by
  rw [← word_fields_xyn u, hop, hx, hy, hn, word_fields_xyn]

/-- A word is its two upper nibbles and its low byte. -/
theorem word_ext_xnn (hop : opField u = opField w) (hx : xField u = xField w) (hnn : nnField u = nnField w) : u = w := by
  rw [← word_fields_xnn u, hop, hx, hnn, word_fields_xnn]

variable (u w)

theorem opField_and : opField (u &&& w) = opField u &&& opField w := BitVec.extractLsb'_and
theorem xField_and : xField (u &&& w) = xField u &&& xField w := BitVec.extractLsb'_and
theorem yField_and : yField (u &&& w) = yField u &&& yField w := BitVec.extractLsb'_and
theorem nField_and : nField (u &&& w) = nField u &&& nField w := BitVec.extractLsb'_and
theorem nnField_and : nnField (u &&& w) = nnField u &&& nnField w := BitVec.extractLsb'_and

/-- Masking a word is masking its four nibbles. -/
theorem and_eq_iff_xyn (p : Half) : u &&& w = p ↔ opField u &&& opField w = opField p ∧ xField u &&& xField w = xField p ∧
    yField u &&& yField w = yField p ∧ nField u &&& nField w = nField p := by
  rw [← opField_and, ← xField_and, ← yField_and, ← nField_and]
  exact ⟨fun h => h ▸ ⟨rfl, rfl, rfl, rfl⟩, fun ⟨hop, hx, hy, hn⟩ => word_ext_xyn hop hx hy hn⟩

/-- Masking a word is masking its two upper nibbles and its low byte. -/
theorem and_eq_iff_xnn (p : Half) : u &&& w = p ↔
    opField u &&& opField w = opField p ∧ xField u &&& xField w = xField p ∧ nnField u &&& nnField w = nnField p := by
  rw [← opField_and, ← xField_and, ← nnField_and]
  exact ⟨fun h => h ▸ ⟨rfl, rfl, rfl⟩, fun ⟨hop, hx, hnn⟩ => word_ext_xnn hop hx hnn⟩

end

/-! ## Encoding a decoded word -/

section
variable {w : Half} {op : Nibble}

open Laws.Canonical (loose of_op)

theorem wordNnn_eq_canonicalWord (hop : opField w = op) (hloose : loose op = false) :
    wordNnn op (nnnField w) = canonicalWord w := by
  rw [of_op hop hloose, ← hop, word_fields_nnn]

theorem wordXNn_eq_canonicalWord (hop : opField w = op) (hloose : loose op = false) {nn : Byte} (hnn : nnField w = nn) :
    wordXNn op (xField w) nn = canonicalWord w := by
  rw [of_op hop hloose, ← hop, ← hnn, word_fields_xnn]

theorem wordXYN_eq_canonicalWord (hop : opField w = op) (hloose : loose op = false) {n : Nibble} (hn : nField w = n) :
    wordXYN op (xField w) (yField w) n = canonicalWord w := by
  rw [of_op hop hloose, ← hop, ← hn, word_fields_xyn]

/-- Classes 0x5 and 0x9 drop the low nibble (R80). -/
theorem wordXYN_zero_eq_canonicalWord (hop : opField w = op) (hmem : op = 0x5#4 ∨ op = 0x9#4) :
    wordXYN op (xField w) (yField w) 0x0#4 = canonicalWord w := by
  have hclass : ¬ (opField w = 0x0#4 ∧ nnField w = 0xE0#8) := by
    rintro ⟨hzero, -⟩
    rw [hop] at hzero
    subst hzero
    exact absurd hmem (by decide)
  rw [canonicalWord, if_neg hclass, if_pos (hop ▸ hmem)]
  have hones (n : Nibble) : n &&& 0xF#4 = n := BitVec.and_allOnes
  refine ((and_eq_iff_xyn ..).mpr ⟨?_, ?_, ?_, ?_⟩).symm
  · exact (hones _).trans (hop.trans (opField_wordXYN ..).symm)
  · exact (hones _).trans (xField_wordXYN ..).symm
  · exact (hones _).trans (yField_wordXYN ..).symm
  · exact BitVec.and_zero.trans (nField_wordXYN ..).symm

/-- CLS drops the nibble `x` (R80). -/
theorem cls_eq_canonicalWord (hop : opField w = 0x0#4) (hnn : nnField w = 0xE0#8) : 0x00E0#16 = canonicalWord w := by
  rw [canonicalWord, if_pos ⟨hop, hnn⟩]
  refine ((and_eq_iff_xnn ..).mpr ⟨?_, BitVec.and_zero, ?_⟩).symm
  · rw [hop]; decide
  · rw [hnn]; decide

theorem DecodesAs.wellFormed {i : Instr} (h : DecodesAs w i) : i.wellFormed = true := by
  cases i with
  | unknown u =>
    obtain ⟨rfl, hspace⟩ := h.of_unknown
    exact hspace
  | _ => rfl

theorem DecodesAs.encode_eq {i : Instr} (h : DecodesAs w i) : encode i = canonicalWord w := by
  cases i with
  | unknown u =>
    obtain ⟨rfl, hspace⟩ := h.of_unknown
    exact (Laws.Canonical.unknown u hspace).symm
  | nop => cases h with | nop hw => subst hw; decide
  | cls => cases h with | cls hop hnn => exact cls_eq_canonicalWord hop hnn
  | jp nnn => cases h with | jp hop => exact wordNnn_eq_canonicalWord hop rfl
  | seImm x nn => cases h with | seImm hop => exact wordXNn_eq_canonicalWord hop rfl rfl
  | sneImm x nn => cases h with | sneImm hop => exact wordXNn_eq_canonicalWord hop rfl rfl
  | seReg x y => cases h with | seReg hop => exact wordXYN_zero_eq_canonicalWord hop (.inl rfl)
  | ldImm x nn => cases h with | ldImm hop => exact wordXNn_eq_canonicalWord hop rfl rfl
  | addImm x nn => cases h with | addImm hop => exact wordXNn_eq_canonicalWord hop rfl rfl
  | ldReg x y => cases h with | ldReg hop hn => exact wordXYN_eq_canonicalWord hop rfl hn
  | orReg x y => cases h with | orReg hop hn => exact wordXYN_eq_canonicalWord hop rfl hn
  | andReg x y => cases h with | andReg hop hn => exact wordXYN_eq_canonicalWord hop rfl hn
  | xorReg x y => cases h with | xorReg hop hn => exact wordXYN_eq_canonicalWord hop rfl hn
  | addReg x y => cases h with | addReg hop hn => exact wordXYN_eq_canonicalWord hop rfl hn
  | sub x y => cases h with | sub hop hn => exact wordXYN_eq_canonicalWord hop rfl hn
  | shr x y => cases h with | shr hop hn => exact wordXYN_eq_canonicalWord hop rfl hn
  | subn x y => cases h with | subn hop hn => exact wordXYN_eq_canonicalWord hop rfl hn
  | shl x y => cases h with | shl hop hn => exact wordXYN_eq_canonicalWord hop rfl hn
  | sneReg x y => cases h with | sneReg hop => exact wordXYN_zero_eq_canonicalWord hop (.inr rfl)
  | ldI nnn => cases h with | ldI hop => exact wordNnn_eq_canonicalWord hop rfl
  | rnd x nn => cases h with | rnd hop => exact wordXNn_eq_canonicalWord hop rfl rfl
  | drw x y n => cases h with | drw hop => exact wordXYN_eq_canonicalWord hop rfl rfl
  | addI x => cases h with | addI hop hnn => exact wordXNn_eq_canonicalWord hop rfl hnn
  | ldVxI x => cases h with | ldVxI hop hnn => exact wordXNn_eq_canonicalWord hop rfl hnn

end

/-- Settles O3: each of the decoder's answers is well-formed and puts back the fields that it was given for. -/
theorem encodeDecodeCanonical : Obligations.EncodeDecodeCanonical :=
  fun w => ⟨(decode_decodesAs w).wellFormed, (decode_decodesAs w).encode_eq⟩

/-! ## Decoding an encoded instruction -/

open Machine

section
variable (x y n : Nibble) (nn : Byte)

theorem decode_wordXYN_seReg : decode (wordXYN 0x5#4 x y n) = .seReg x y := by
  rw [decode_of_op (by rw [opField_wordXYN]; decide), decodeClass, opField_wordXYN]
  exact congrArg₂ Instr.seReg (xField_wordXYN ..) (yField_wordXYN ..)

theorem decode_wordXYN_sneReg : decode (wordXYN 0x9#4 x y n) = .sneReg x y := by
  rw [decode_of_op (by rw [opField_wordXYN]; decide), decodeClass, opField_wordXYN]
  exact congrArg₂ Instr.sneReg (xField_wordXYN ..) (yField_wordXYN ..)

theorem decode_wordXNn_rnd : decode (wordXNn 0xC#4 x nn) = .rnd x nn := by
  rw [decode_of_op (by rw [opField_wordXNn]; decide), decodeClass, opField_wordXNn]
  exact congrArg₂ Instr.rnd (xField_wordXNn ..) (nnField_wordXNn ..)

theorem decode_wordXYN_drw : decode (wordXYN 0xD#4 x y n) = .drw x y n := by
  have hdraw : decodeClass (wordXYN 0xD#4 x y n) =
      .drw (xField (wordXYN 0xD#4 x y n)) (yField (wordXYN 0xD#4 x y n)) (nField (wordXYN 0xD#4 x y n)) := by
    rw [decodeClass, opField_wordXYN]
    rfl
  rw [decode_of_op (by rw [opField_wordXYN]; decide), hdraw, xField_wordXYN, yField_wordXYN, nField_wordXYN]

theorem decode_wordXYN_addReg : decode (wordXYN 0x8#4 x y 0x4#4) = .addReg x y :=
  decode_wordXYN_class8 x y fun w hn => by rw [decodeClass8, hn]; rfl

theorem decode_wordXYN_sub : decode (wordXYN 0x8#4 x y 0x5#4) = .sub x y :=
  decode_wordXYN_class8 x y fun w hn => by rw [decodeClass8, hn]; rfl

theorem decode_wordXYN_subn : decode (wordXYN 0x8#4 x y 0x7#4) = .subn x y :=
  decode_wordXYN_class8 x y fun w hn => by rw [decodeClass8, hn]; rfl

theorem decode_wordXYN_shl : decode (wordXYN 0x8#4 x y 0xE#4) = .shl x y :=
  decode_wordXYN_class8 x y fun w hn => by rw [decodeClass8, hn]; rfl

/-- A word of class 0xF goes to the secondary dispatch (R79). -/
theorem decode_wordXNn_classF : decode (wordXNn 0xF#4 x nn) = decodeClassF (wordXNn 0xF#4 x nn) := by
  rw [decode_of_op (by rw [opField_wordXNn]; decide), decodeClass, opField_wordXNn]
  rfl

theorem decode_wordXNn_addI : decode (wordXNn 0xF#4 x 0x1E#8) = .addI x := by
  rw [decode_wordXNn_classF, decodeClassF, if_pos (nnField_wordXNn ..), xField_wordXNn]

theorem decode_wordXNn_ldVxI : decode (wordXNn 0xF#4 x 0x65#8) = .ldVxI x := by
  rw [decode_wordXNn_classF, decodeClassF, if_neg (by rw [nnField_wordXNn]; decide), if_pos (nnField_wordXNn ..),
    xField_wordXNn]

end

/-- Decoding takes an instruction's word back to the instruction (R85). -/
theorem decode_encode {i : Instr} (h : i.wellFormed = true) : decode (encode i) = i := by
  cases i with
  | nop => decide
  | cls => decide
  | jp nnn => exact decode_wordNnn_jp nnn
  | seImm x nn => exact decode_wordXNn_seImm x nn
  | sneImm x nn => exact decode_wordXNn_sneImm x nn
  | seReg x y => exact decode_wordXYN_seReg x y _
  | ldImm x nn => exact decode_wordXNn_ldImm x nn
  | addImm x nn => exact decode_wordXNn_addImm x nn
  | ldReg x y => exact decode_wordXYN_ldReg x y
  | orReg x y => exact decode_wordXYN_orReg x y
  | andReg x y => exact decode_wordXYN_andReg x y
  | xorReg x y => exact decode_wordXYN_xorReg x y
  | addReg x y => exact decode_wordXYN_addReg x y
  | sub x y => exact decode_wordXYN_sub x y
  | shr x y => exact decode_wordXYN_shr x y
  | subn x y => exact decode_wordXYN_subn x y
  | shl x y => exact decode_wordXYN_shl x y
  | sneReg x y => exact decode_wordXYN_sneReg x y _
  | ldI nnn => exact decode_wordNnn_ldI nnn
  | rnd x nn => exact decode_wordXNn_rnd x nn
  | drw x y n => exact decode_wordXYN_drw x y n
  | addI x => exact decode_wordXNn_addI x
  | ldVxI x => exact decode_wordXNn_ldVxI x
  | unknown w => exact decode_of_inUnknownSpace h

/-- The bytes of an instruction at the head of a sequence decode as its word does (R70, R87). -/
theorem decodeBytes_encodeBytes (i : Instr) (rest : List Byte) :
    decodeBytes (encodeBytes i ++ rest) = .ok (decode (encode i), rest) :=
  congrArg (fun w => Except.ok (decode w, rest)) (joinWord_hiByte_loByte (encode i))

/-- Settles O2: an instruction's word has the fields it was built from, so the dispatch finds its way back to it, and its bytes
join to its word. -/
theorem decodeEncodeRoundTrip : Obligations.DecodeEncodeRoundTrip := by
  intro i rest h
  have hword : decode (encode i) = i := decode_encode h
  exact ⟨hword, by rw [decodeBytes_encodeBytes, hword]⟩

/-- Settles O1: each of these words is one of the table of R73, and the decoder computes its instruction. -/
theorem specWordsDecode : Obligations.SpecWordsDecode := by
  unfold Obligations.SpecWordsDecode
  decide

end Sys2Proof
end

section
/-! PROOFS of the decoder against the rows of spec/opcode_table.json. -/

namespace Sys2Proof

/-! ## Which words a row of the table matches, by their fields -/

section
variable (w p : Half)

theorem mask_none_iff : w &&& (0x0000 : Half) = (0x0000 : Half) ↔ True := iff_of_true BitVec.and_zero trivial

theorem mask_all_iff : w &&& (0xFFFF : Half) = p ↔ opField w = opField p ∧ nnField w = nnField p ∧ xField w = xField p := by
  rw [show (0xFFFF : Half) = BitVec.allOnes 16 from rfl, BitVec.and_allOnes]
  exact ⟨fun h => h ▸ ⟨rfl, rfl, rfl⟩, fun ⟨hop, hnn, hx⟩ => word_ext_xnn hop hx hnn⟩

theorem mask_op_iff : w &&& (0xF000 : Half) = p ↔ opField w = opField p ∧ 0x0#4 = xField p ∧ 0x00#8 = nnField p := by
  have hop : opField w &&& opField 0xF000 = opField w := BitVec.and_allOnes
  have hx : xField w &&& xField 0xF000 = 0x0#4 := BitVec.and_zero
  have hnn : nnField w &&& nnField 0xF000 = 0x00#8 := BitVec.and_zero
  rw [and_eq_iff_xnn, hop, hx, hnn]

theorem mask_op_low_iff : w &&& (0xF00F : Half) = p ↔
    opField w = opField p ∧ 0x0#4 = xField p ∧ 0x0#4 = yField p ∧ nField w = nField p := by
  have hop : opField w &&& opField 0xF00F = opField w := BitVec.and_allOnes
  have hx : xField w &&& xField 0xF00F = 0x0#4 := BitVec.and_zero
  have hy : yField w &&& yField 0xF00F = 0x0#4 := BitVec.and_zero
  have hn : nField w &&& nField 0xF00F = nField w := BitVec.and_allOnes
  rw [and_eq_iff_xyn, hop, hx, hy, hn]

theorem mask_op_byte_iff : w &&& (0xF0FF : Half) = p ↔ opField w = opField p ∧ 0x0#4 = xField p ∧ nnField w = nnField p := by
  have hop : opField w &&& opField 0xF0FF = opField w := BitVec.and_allOnes
  have hx : xField w &&& xField 0xF0FF = 0x0#4 := BitVec.and_zero
  have hnn : nnField w &&& nnField 0xF0FF = nnField w := BitVec.and_allOnes
  rw [and_eq_iff_xnn, hop, hx, hnn]

end

/-- The first row that a word matches names the word's decoding. -/
theorem DecodesAs.firstMatch_eq {w : Half} {i : Instr} (h : DecodesAs w i) : firstMatch w opcodeTable = some i.mnemonic := by
  simp only [opcodeTable, firstMatch, mask_none_iff, mask_all_iff, mask_op_iff, mask_op_low_iff, mask_op_byte_iff]
  cases h with
  | nop hw => subst hw; rfl
  | cls hop hnn => rw [hop, hnn]; rfl
  | jp hop | seImm hop | sneImm hop | seReg hop | ldImm hop | addImm hop | sneReg hop | ldI hop | rnd hop | drw hop =>
    rw [hop]; rfl
  | ldReg hop hn | orReg hop hn | andReg hop hn | xorReg hop hn | addReg hop hn | sub hop hn | shr hop hn | subn hop hn
  | shl hop hn => rw [hop, hn]; rfl
  | addI hop hnn | ldVxI hop hnn => rw [hop, hnn]; rfl
  | unknownClass hop =>
    simp only [List.mem_cons, List.not_mem_nil, or_false] at hop
    rcases hop with hop | hop | hop <;> rw [hop] <;> rfl
  | unknownZero hop hw hnn =>
    have hnop : ¬ (opField w = opField 0x0000 ∧ nnField w = nnField 0x0000 ∧ xField w = xField 0x0000) :=
      fun ⟨h1, h2, h3⟩ => hw (word_ext_xnn h1 h3 h2)
    have hcls : nnField w ≠ nnField 0x00E0 := hnn
    rw [if_neg hnop, if_neg (fun h => hcls h.2.2), hop]
    rfl
  | unknownLow hop hn =>
    simp only [unusedLow, List.mem_cons, List.not_mem_nil, or_false] at hn
    rcases hn with hn | hn | hn | hn | hn | hn | hn <;> rw [hop, hn] <;> rfl
  | unknownByte hop hadd hload =>
    have haddRow : nnField w ≠ nnField 0xF01E := hadd
    have hloadRow : nnField w ≠ nnField 0xF065 := hload
    simp only [hop, haddRow, hloadRow, and_false, if_false]
    rfl

/-- Settles O5: the rows' masks see only fields, and for the fields of each of the decoder's answers the first row that matches is
the answer's own. -/
theorem decodeAgreesWithOpcodeTable : Obligations.DecodeAgreesWithOpcodeTable :=
  fun w => (decode_decodesAs w).firstMatch_eq

end Sys2Proof
end

section
/-! PROOFS about all instructions at once: what an instruction can do to the state, said once as `Effect`, and from it who raises a
fault (60_exceptions.md R162, R163) and what no instruction touches (10_state.md R45). -/

namespace Sys2Proof.Machine

/-! ## DRW as one state -/

/-- The state after a draw of given rows, with the collision bit written to V[F]. -/
def State.drawn (s : State) (vx vy : Byte) (rows : List Byte) : State :=
  (s.setSlot (otherSlot s.cur) (drawGrid (s.slot (otherSlot s.cur)) vx vy rows).grid).setDrawFlag Config.drawVfClear
    (drawGrid (s.slot (otherSlot s.cur)) vx vy rows).collision

section
variable (s : State) (vx vy : Byte) (rows : List Byte)

theorem drawn_slot_other :
    (s.drawn vx vy rows).slot (otherSlot s.cur) = (drawGrid (s.slot (otherSlot s.cur)) vx vy rows).grid := by
  rw [State.drawn, setDrawFlag_slot, setSlot_slot_self]

theorem drawn_slot_cur : (s.drawn vx vy rows).slot s.cur = s.slot s.cur := by
  rw [State.drawn, setDrawFlag_slot, setSlot_slot, if_neg (ne_otherSlot s.cur)]

/-- A draw writes pixels and V[F] alone. -/
theorem drawn_eq : s.drawn vx vy rows =
    { s with v := (s.drawn vx vy rows).v, fb0 := (s.drawn vx vy rows).fb0, fb1 := (s.drawn vx vy rows).fb1 } := by
  have hflag (u : State) (b d : Bool) : u.setDrawFlag b d = { u with v := (u.setDrawFlag b d).v } := by
    cases b <;> cases d <;> rfl
  have hslot (k : Slot) (g : Grid) : s.setSlot k g = { s with fb0 := (s.setSlot k g).fb0, fb1 := (s.setSlot k g).fb1 } := by
    cases k <;> rfl
  rw [State.drawn, hflag, hslot]

end

/-! ## CLS as one state -/

/-- The state in which the transactions between the two clears of a CLS begin: its first clear is done. -/
def State.halfCleared (s : State) : State :=
  State.setSlot { s with between := s.between.tail, free := s.free + 1 } (clearedFirst s) blankGrid

/-- The state after a CLS: the second clear of the state that the transactions between the two clears leave (44_display.md R148). -/
def State.cleared (s : State) : State :=
  State.setSlot (performAll s.halfCleared s.inside) (otherSlot (clearedFirst s)) blankGrid

section
variable (s : State)

theorem exec_cls : exec .cls s = .next s.cleared := execCls_eq s

theorem cleared_slot (k : Slot) : s.cleared.slot k = blankGrid := execClsWith_slot _ _ _ _ (exec_cls s) k

/-- A CLS with nothing between its clears. -/
theorem cleared_quiet (h : s.inside = []) :
    s.cleared = { s with fb0 := blankGrid, fb1 := blankGrid, between := s.between.tail, free := s.free + 1 } := by
  have hcls : (.next s.cleared : Result State) = .next _ := (exec_cls s).symm.trans (execCls_quiet s h)
  exact Host.Outcome.next.inj hcls

/-- The current slot after a CLS has been flipped by each swap between its clears. -/
theorem cleared_cur : s.cleared.cur = currentAfter s.cur s.inside := by
  rw [State.cleared, setSlot_cur, performAll_cur, State.halfCleared, setSlot_cur]

/-! Neither a clear nor what falls between touches the interpreter's own registers. -/

theorem cleared_v : s.cleared.v = s.v := by
  rw [State.cleared, setSlot_v, (performAll_frame ..).v, State.halfCleared, setSlot_v]

theorem cleared_idx : s.cleared.idx = s.idx := by
  rw [State.cleared, setSlot_idx, (performAll_frame ..).idx, State.halfCleared, setSlot_idx]

theorem cleared_pc : s.cleared.pc = s.pc := by
  rw [State.cleared, setSlot_pc, (performAll_frame ..).pc, State.halfCleared, setSlot_pc]

theorem cleared_status : s.cleared.status = s.status := by
  rw [State.cleared, setSlot_status, (performAll_frame ..).status, State.halfCleared, setSlot_status]

end

/-! ## Every effect of an instruction -/

/-- Where R162 has an instruction raise a fault, and with which cause. -/
inductive Faults (s : State) : Instr → Cause → Prop
  | load {x : Nibble} (h : memSize ≤ s.idx.toNat + x.toNat) : Faults s (.ldVxI x) .loadOob
  | sprite {x y n : Nibble} (hn : n.toNat ≠ 0) (h : memSize < s.idx.toNat + n.toNat) : Faults s (.drw x y n) .spriteOob
  | overflow {x : Nibble} (h : 0xFFFF < s.idx.toNat + (s.reg x).toNat) (hp : Config.idxOverflow = .fault) :
      Faults s (.addI x) .idxOverflow

/-- Everything that an instruction can do to the state. -/
inductive Effect (s : State) : Instr → State → Prop
  /-- NOP, and a skip that is not taken -/
  | same {i : Instr} : Effect s i s
  /-- the register instructions, RND and FX65; RND moves on to the next free value -/
  | registers {i : Instr} (v : Vector Byte 16) (n : Nat) : Effect s i { s with v := v, free := n }
  /-- the jump and a taken skip -/
  | control {i : Instr} (a : Half) (h : a.toNat < memSize ∨ a = s.pc + 2#16) : Effect s i (s.setPc a)
  /-- LD I and FX1E -/
  | index {i : Instr} (a : Half) : Effect s i (s.setIdx a)
  /-- an unknown word -/
  | event {i : Instr} (o : Output) : Effect s i (s.emit o)
  /-- DRW -/
  | drawn {i : Instr} (vx vy : Byte) (rows : List Byte) : Effect s i (s.drawn vx vy rows)
  /-- CLS -/
  | cleared : Effect s .cls s.cleared
  /-- a fault of FX65, DRW or FX1E -/
  | raised {i : Instr} {cause : Cause} (h : Faults s i cause) : Effect s i (s.raise cause s.idx)

section
variable (s : State)

theorem skipIf_effect {i : Instr} (c : Bool) : Effect s i (s.skipIf c) := by
  cases c
  · exact .same
  · exact .control _ (.inr rfl)

theorem execSub_effect (x y : Nibble) : ∃ t, execSub x y s = .next t ∧ Effect s (.sub x y) t := by
  obtain ⟨flag, result, hsub⟩ := execSubWith_eq_setReg s Config.subOperands Config.subUnderflow x y
  exact ⟨_, hsub, .registers _ s.free⟩

theorem execDrw_effect (x y n : Nibble) : ∃ t, execDrw x y n s = .next t ∧ Effect s (.drw x y n) t := by
  obtain ⟨-, hdraw⟩ | ⟨⟨hn, hend⟩, hfault⟩ := execDrwWith_cases Config.drawVfClear x y n s
  · exact ⟨_, hdraw, .drawn (s.reg x) (s.reg y) _⟩
  · exact ⟨_, hfault, .raised (.sprite hn hend)⟩

theorem execAddI_effect (x : Nibble) : ∃ t, execAddI x s = .next t ∧ Effect s (.addI x) t := by
  obtain ⟨-, hsum⟩ | ⟨hbig, hp, hfault⟩ := execAddIWith_cases Config.idxOverflow x s
  · exact ⟨_, hsum, .index _⟩
  · exact ⟨_, hfault, .raised (.overflow hbig hp)⟩

theorem execLdVxI_effect (x : Nibble) : ∃ t, execLdVxI x s = .next t ∧ Effect s (.ldVxI x) t := by
  obtain ⟨-, hload⟩ | ⟨hend, hfault⟩ := execLdVxI_cases x s
  · exact ⟨_, hload, .registers _ s.free⟩
  · exact ⟨_, hfault, .raised (.load hend)⟩

/-- Every instruction answers a next state, and this is all that the state can be. -/
theorem exec_effect (i : Instr) : ∃ t, exec i s = .next t ∧ Effect s i t := by
  cases i with
  | nop => exact ⟨_, rfl, .same⟩
  | cls => exact ⟨_, exec_cls s, .cleared⟩
  | jp nnn => exact ⟨_, rfl, .control _ (.inl (zext16_toNat nnn ▸ nnn.isLt))⟩
  | seImm x nn => exact ⟨_, rfl, skipIf_effect s _⟩
  | sneImm x nn => exact ⟨_, rfl, skipIf_effect s _⟩
  | seReg x y => exact ⟨_, rfl, skipIf_effect s _⟩
  | sneReg x y => exact ⟨_, rfl, skipIf_effect s _⟩
  | ldImm x nn => exact ⟨_, rfl, .registers _ s.free⟩
  | addImm x nn => exact ⟨_, rfl, .registers _ s.free⟩
  | ldReg x y => exact ⟨_, rfl, .registers _ s.free⟩
  | orReg x y => exact ⟨_, rfl, .registers _ s.free⟩
  | andReg x y => exact ⟨_, rfl, .registers _ s.free⟩
  | xorReg x y => exact ⟨_, rfl, .registers _ s.free⟩
  | addReg x y => exact ⟨_, rfl, .registers _ s.free⟩
  | sub x y => exact execSub_effect s x y
  | shr x y => exact ⟨_, rfl, .registers _ s.free⟩
  | subn x y => exact ⟨_, rfl, .registers _ s.free⟩
  | shl x y => exact ⟨_, rfl, .registers _ s.free⟩
  | ldI nnn => exact ⟨_, rfl, .index _⟩
  | rnd x nn => exact ⟨_, rfl, .registers _ (s.free + 1)⟩
  | drw x y n => exact execDrw_effect s x y n
  | addI x => exact execAddI_effect s x
  | ldVxI x => exact execLdVxI_effect s x
  | unknown w => exact ⟨_, rfl, .event _⟩

end

section
variable {s t : State} {i : Instr}

theorem effect_of_exec (h : exec i s = .next t) : Effect s i t := by
  obtain ⟨u, hu, he⟩ := exec_effect s i
  obtain rfl : u = t := Host.Outcome.next.inj (hu.symm.trans h)
  exact he

/-! ## Who changes the status -/

/-- An instruction leaves the status alone or raises a fault that writes nothing else. -/
theorem Effect.status_or_raised (h : Effect s i t) :
    t.status = s.status ∨ ∃ cause, Faults s i cause ∧ t = s.raise cause s.idx := by
  cases h with
  | raised hfault => exact .inr ⟨_, hfault, rfl⟩
  | same | registers | control | index | event => exact .inl rfl
  | drawn => exact .inl (by rw [drawn_eq])
  | cleared => exact .inl (cleared_status s)

/-! ## What no instruction touches -/

/-- The fields that every instruction leaves alone (10_state.md R45, 20_memory.md R54). -/
structure Kept (s t : State) : Prop where
  mem : t.mem = s.mem
  stack : t.stack = s.stack
  sp : t.sp = s.sp
  boot : t.boot = s.boot
  driverStopped : t.driverStopped = s.driverStopped
  tickStopped : t.tickStopped = s.tickStopped
  agenda : t.agenda = s.agenda
  outside : t.outside = s.outside

theorem cleared_kept (s : State) : Kept s s.cleared := by
  constructor <;> unfold State.cleared
  · rw [setSlot_mem, (performAll_frame ..).mem, State.halfCleared, setSlot_mem]
  · rw [setSlot_stack, (performAll_frame ..).stack, State.halfCleared, setSlot_stack]
  · rw [setSlot_sp, (performAll_frame ..).sp, State.halfCleared, setSlot_sp]
  · rw [setSlot_boot, (performAll_frame ..).boot, State.halfCleared, setSlot_boot]
  · rw [setSlot_driverStopped, (performAll_frame ..).driverStopped, State.halfCleared, setSlot_driverStopped]
  · rw [setSlot_tickStopped, (performAll_frame ..).tickStopped, State.halfCleared, setSlot_tickStopped]
  · rw [setSlot_agenda, (performAll_frame ..).agenda, State.halfCleared, setSlot_agenda]
  · rw [setSlot_outside, (performAll_frame ..).outside, State.halfCleared, setSlot_outside]

theorem Effect.kept (h : Effect s i t) : Kept s t := by
  cases h with
  | same | registers | control | index | event | raised => exact ⟨rfl, rfl, rfl, rfl, rfl, rfl, rfl, rfl⟩
  | drawn =>
    rw [drawn_eq]
    exact ⟨rfl, rfl, rfl, rfl, rfl, rfl, rfl, rfl⟩
  | cleared => exact cleared_kept s

/-- The counters and `cur` change only by transactions of other agents inside a CLS. -/
theorem Effect.sharedKept (h : Effect s i t) (hquiet : i ≠ .cls ∨ s.inside = []) :
    t.dt = s.dt ∧ t.st = s.st ∧ t.cur = s.cur := by
  cases h with
  | same | registers | control | index | event | raised => exact ⟨rfl, rfl, rfl⟩
  | drawn =>
    rw [drawn_eq]
    exact ⟨rfl, rfl, rfl⟩
  | cleared =>
    have hinside : s.inside = [] := hquiet.resolve_left (not_not.mpr rfl)
    rw [cleared_quiet s hinside]
    exact ⟨rfl, rfl, rfl⟩

end

/-! ## The obligations -/

/-- Settles O9: by the effect of the instruction, with each fault's condition from `Faults`. -/
theorem onlyBoundsChecksFault : Obligations.OnlyBoundsChecksFault := by
  intro i s
  obtain ⟨t, hexec, heffect⟩ := exec_effect s i
  refine ⟨t, hexec, ?_⟩
  obtain hkeep | ⟨cause, hfault, rfl⟩ := heffect.status_or_raised
  · exact .inl hkeep
  · cases hfault with
    | load hend => exact .inr (.inl ⟨_, rfl, hend, rfl⟩)
    | sprite hn hend => exact .inr (.inr (.inl ⟨_, _, _, rfl, Nat.pos_of_ne_zero hn, hend, rfl⟩))
    | overflow hbig hp => exact .inr (.inr (.inr ⟨_, rfl, hp, hbig, rfl⟩))

/-- Settles O10: a status that was RUNNING and is FAULTED was changed, and the one effect that changes it is `raise` at idx. -/
theorem faultsArePrecise : Obligations.FaultsArePrecise := by
  intro i s t cause addr hexec hrun hfaulted
  obtain hkeep | ⟨cause', -, rfl⟩ := (effect_of_exec hexec).status_or_raised
  · have : Status.running = .faulted cause addr := hrun.symm.trans (hkeep.symm.trans hfaulted)
    contradiction
  · obtain ⟨rfl, rfl⟩ : cause' = cause ∧ s.idx = addr := Status.faulted.inj hfaulted
    exact ⟨rfl, rfl⟩

/-- Settles O35: none of the effects touches the listed fields. -/
theorem instructionsLeaveOtherStateAlone : Obligations.InstructionsLeaveOtherStateAlone := by
  intro i s t hexec
  obtain ⟨-, hstack, hsp, hboot, hdriver, htick, hagenda, houtside⟩ := (effect_of_exec hexec).kept
  exact ⟨hstack, hsp, hboot, hdriver, htick, hagenda, houtside, (effect_of_exec hexec).sharedKept⟩

end Sys2Proof.Machine
end

section
/-! PROOFS of the invariants of every step: the machine's data and what a FAULTED status records. -/

namespace Sys2Proof.Machine

/-! ## The invariant of the machine's data -/

section
variable {s t : State} {i : Instr}

/-- The invariant reads memory, the slots, pc and the call stack alone. -/
theorem State.Inv.congr (h : s.Inv) (hmem : t.mem = s.mem) (hslot : ∀ k, t.slot k = s.slot k) (hpc : t.pc = s.pc)
    (hstack : t.stack = s.stack) (hsp : t.sp = s.sp) : t.Inv where
  memory := hmem ▸ h.memory
  pixels k r c := by
    rw [State.pixel, hslot k]
    exact h.pixels k r c
  pcRange := hpc ▸ h.pcRange
  stackForm := hstack ▸ h.stackForm
  spRange := hsp ▸ h.spRange

theorem popped_inv (h : s.Inv) : s.popped.Inv :=
  h.congr (popped_mem s) (popped_slot s) (popped_pc s) (popped_stack s) (popped_sp s)

theorem SharedFrame.inv (f : SharedFrame s t) (h : s.Inv) : t.Inv := h.congr f.mem f.slot f.pc f.stack f.sp

theorem blankGrid_legal (r : Fin screenH) (c : Fin screenW) : legalPixel (gridPixel blankGrid r c) :=
  .inl (gridPixel_blankGrid r c)

theorem reset_slot (k : Slot) : State.reset.slot k = blankGrid := by cases k <;> rfl

theorem reset_inv : State.reset.Inv where
  memory := rfl
  pixels k r c := by
    rw [State.pixel, reset_slot]
    exact blankGrid_legal r c
  pcRange := by decide
  stackForm := rfl
  spRange := Nat.zero_le _

/-- The draw toggles pixels between 0 and 255, the clear leaves 0, and nothing else writes one (44_display.md R156). -/
theorem Effect.pixels_legal (h : Effect s i t) (hs : ∀ k r c, legalPixel (s.pixel k r c)) (k : Slot) (r : Fin screenH)
    (c : Fin screenW) : legalPixel (t.pixel k r c) := by
  cases h with
  | same | registers | control | index | event | raised => exact hs k r c
  | drawn vx vy rows =>
    rw [State.pixel, State.drawn, setDrawFlag_slot, setSlot_slot]
    split
    · exact drawGrid_legal (hs (otherSlot s.cur)) vx vy rows r c
    · exact hs k r c
  | cleared =>
    rw [State.pixel, cleared_slot]
    exact blankGrid_legal r c

/-- The pc that an instruction leaves, from the pc that fetch has advanced: a target below 0x1000, or at most one skip. -/
theorem Effect.pc_le (h : Effect s i t) (hs : s.pc.toNat ≤ 0x1000) : t.pc.toNat ≤ 0x1002 := by
  have hsame : s.pc.toNat ≤ 0x1002 := Nat.le_trans hs (by decide)
  cases h with
  | same | registers | index | event | raised => exact hsame
  | control a ha =>
    rw [setPc_pc]
    obtain ha | rfl := ha
    · exact Nat.le_trans (Nat.le_of_lt ha) (by decide)
    · rw [BitVec.toNat_add]
      exact Nat.le_trans (Nat.mod_le ..) (Nat.add_le_add_right hs 2)
  | drawn => rwa [drawn_eq]
  | cleared => rwa [cleared_pc]

theorem Effect.inv (h : Effect s i t) (hs : s.Inv) (hpc : s.pc.toNat ≤ 0x1000) : t.Inv where
  memory := h.kept.mem ▸ hs.memory
  pixels := h.pixels_legal hs.pixels
  pcRange := h.pc_le hpc
  stackForm := h.kept.stack ▸ hs.stackForm
  spRange := h.kept.sp ▸ hs.spRange

/-- A word was fetched only below 0x0FFF, so pc after fetch is at most 0x1000. -/
theorem fetched_pc_le (h : s.pc.toNat + 1 < memSize) : s.fetched.pc.toNat ≤ 0x1000 := by
  rw [fetched_pc, BitVec.toNat_add]
  exact Nat.le_trans (Nat.mod_le ..) (Nat.succ_le_of_lt h)

theorem fetched_inv (h : s.Inv) (hpc : s.pc.toNat + 1 < memSize) : s.fetched.Inv where
  memory := h.memory
  pixels := h.pixels
  pcRange := Nat.le_trans (fetched_pc_le hpc) (by decide)
  stackForm := h.stackForm
  spRange := h.spRange

theorem cycle_inv (h : cycle s = .next t) (hs : s.Inv) : t.Inv := by
  obtain ⟨-, rfl⟩ | ⟨-, -, -, rfl⟩ | ⟨-, -, hpc, w, -, hexec⟩ := cycle_next_cases s h
  · exact hs
  · exact hs.congr rfl (fun k => by cases k <;> rfl) rfl rfl rfl
  · exact (effect_of_exec hexec).inv (fetched_inv hs hpc) (fetched_pc_le hpc)

/-- An accepted load fits in memory, so it keeps memory canonical (20_memory.md R57). -/
theorem load_inv {image : List Byte} (h : load image s = .next t) (hs : s.Inv) : t.Inv := by
  obtain ⟨-, hlen, hok⟩ | ⟨-, hno⟩ | ⟨-, -, hno⟩ := load_cases s image
  · obtain rfl := Host.Outcome.next.inj (hok.symm.trans h)
    have hfits : progBase + image.length ≤ memSize := Nat.add_le_of_le_sub' (by decide) hlen
    exact ⟨Memory.storeBytes_wf image hfits hs.memory, hs.pixels, hs.pcRange, hs.stackForm, hs.spRange⟩
  · cases hno.symm.trans h
  · cases hno.symm.trans h

theorem perform_inv {r : Request} (h : perform r s = .next t) (hs : s.Inv) : t.Inv := by
  cases r with
  | step => exact cycle_inv h hs
  | shared op =>
    obtain rfl := Host.Outcome.next.inj h
    exact (performShared_frame s op).inv hs
  | reset =>
    obtain rfl := Host.Outcome.next.inj h
    exact reset_inv.congr rfl (fun k => by cases k <;> rfl) rfl rfl rfl
  | load image => exact load_inv h hs
  | stop which =>
    obtain rfl := Host.Outcome.next.inj h
    exact hs.congr (stop_mem ..) (fun k => by cases k <;> cases which <;> rfl) (stop_pc ..) (stop_stack ..) (stop_sp ..)

end

/-- Settles O58: taking the request touches nothing that the invariant reads, and what each request performs keeps it. -/
theorem stepKeepsInvariant : Obligations.StepKeepsInvariant :=
  fun _ _ hinv hstep => perform_inv hstep (popped_inv hinv)

/-- Settles O57: memory and the stack list nothing after reset, every pixel is 0, and the status is RUNNING. -/
theorem resetMeetsInvariant : Obligations.ResetMeetsInvariant := ⟨reset_inv, trivial⟩

/-! ## What a FAULTED status records -/

section
variable {s t : State} {i : Instr}

/-- The record reads the status, pc and idx alone. -/
theorem State.FaultRecord.congr (h : s.FaultRecord) (hstatus : t.status = s.status) (hpc : t.pc = s.pc)
    (hidx : t.idx = s.idx) : t.FaultRecord := by
  rw [State.FaultRecord, hstatus, hpc, hidx]
  exact h

theorem faultRecord_running (h : s.status = .running) : s.FaultRecord := by
  rw [State.FaultRecord, h]
  trivial

theorem popped_faultRecord (h : s.FaultRecord) : s.popped.FaultRecord :=
  h.congr (popped_status s) (popped_pc s) (popped_idx s)

/-- A fetch fails where its second byte is beyond memory, so pc is at least 0x0FFF. -/
theorem fetchFault_faultRecord (h : memSize ≤ s.pc.toNat + 1) : s.fetchFault.FaultRecord := ⟨rfl, Nat.le_of_succ_le_succ h⟩

/-- An operand of 4 bits, or of 8 for the sum, leaves idx no lower than the record says. -/
theorem raise_faultRecord {cause : Cause} (h : Faults s i cause) : (s.raise cause s.idx).FaultRecord := by
  cases h with
  | @load x hend =>
    have hx : x.toNat < 16 := x.isLt
    have hfail : 0x1000 ≤ s.idx.toNat + x.toNat := hend
    exact ⟨rfl, by omega⟩
  | @sprite x y n _ hend =>
    have hn : n.toNat < 16 := n.isLt
    have hfail : 0x1000 < s.idx.toNat + n.toNat := hend
    exact ⟨rfl, by omega⟩
  | @overflow x hbig hp =>
    have hv : (s.reg x).toNat < 256 := (s.reg x).isLt
    exact ⟨rfl, by omega, hp⟩

theorem Effect.faultRecord (h : Effect s i t) (hrun : s.status = .running) : t.FaultRecord := by
  obtain hkeep | ⟨cause, hfault, rfl⟩ := h.status_or_raised
  · exact faultRecord_running (hkeep.trans hrun)
  · exact raise_faultRecord hfault

theorem cycle_faultRecord (h : cycle s = .next t) (hs : s.FaultRecord) : t.FaultRecord := by
  obtain ⟨-, rfl⟩ | ⟨-, -, hpc, rfl⟩ | ⟨hrun, -, -, w, -, hexec⟩ := cycle_next_cases s h
  · exact hs
  · exact fetchFault_faultRecord hpc
  · exact (effect_of_exec hexec).faultRecord hrun

/-- A load changes memory, the launch and the outputs alone. -/
theorem load_next {image : List Byte} (h : load image s = .next t) :
    t = { s with mem := t.mem, boot := .loaded, outputs := .loadAccepted :: s.outputs } := by
  obtain ⟨-, -, hok⟩ | ⟨-, hno⟩ | ⟨-, -, hno⟩ := load_cases s image
  · obtain rfl := Host.Outcome.next.inj (hok.symm.trans h)
    rfl
  · cases hno.symm.trans h
  · cases hno.symm.trans h

theorem perform_faultRecord {r : Request} (h : perform r s = .next t) (hs : s.FaultRecord) : t.FaultRecord := by
  cases r with
  | step => exact cycle_faultRecord h hs
  | shared op =>
    obtain rfl := Host.Outcome.next.inj h
    have hframe := performShared_frame s op
    exact hs.congr hframe.status hframe.pc hframe.idx
  | reset =>
    obtain rfl := Host.Outcome.next.inj h
    exact faultRecord_running rfl
  | load image =>
    rw [load_next h]
    exact hs
  | stop which =>
    obtain rfl := Host.Outcome.next.inj h
    exact hs.congr (stop_status ..) (stop_pc ..) (stop_idx ..)

end

/-- Settles O59: a fault is raised with its own address in its own range, and no step that leaves a FAULTED status moves pc or
idx. -/
theorem stepKeepsFaultRecord : Obligations.StepKeepsFaultRecord :=
  fun _ _ hrecord hstep => perform_faultRecord hstep (popped_faultRecord hrecord)

end Sys2Proof.Machine
end

section
/-! PROOFS about the jump, the skips, LD I and the register instructions (41_control_flow.md, 42_alu.md). -/

namespace Sys2Proof.Machine

/-! ## Jump, skips and LD I (R101 to R105, R130) -/

/-- A skip writes pc alone. -/
theorem skipIf_eq (s : State) (c : Bool) : s.skipIf c = { s with pc := (s.skipIf c).pc } := by cases c <;> rfl

/-- The frame of an outcome that is a skip. -/
theorem frame_of_skip {s t : State} {c : Bool} (h : (.next (s.skipIf c) : Result State) = .next t) :
    t = { s with pc := t.pc } := by
  obtain rfl := Host.Outcome.next.inj h
  exact skipIf_eq s c

/-- Settles O16: the jump writes pc, a skip is `skipIf`, and LD I writes idx. -/
theorem jumpSkipAndIndexFrame : Obligations.JumpSkipAndIndexFrame := by
  intro i s t h
  have hread : ∀ a, t.readByte a = s.readByte a := readByte_of_mem (exec_mem h)
  refine ⟨?control, ?index⟩
  case control =>
    rintro (⟨nnn, rfl⟩ | ⟨x, nn, rfl | rfl⟩ | ⟨x, y, rfl | rfl⟩)
    · obtain rfl := Host.Outcome.next.inj h
      exact ⟨rfl, hread⟩
    · exact ⟨frame_of_skip h, hread⟩
    · exact ⟨frame_of_skip h, hread⟩
    · exact ⟨frame_of_skip h, hread⟩
    · exact ⟨frame_of_skip h, hread⟩
  case index =>
    rintro ⟨nnn, rfl⟩
    obtain rfl := Host.Outcome.next.inj h
    exact ⟨rfl, hread⟩

/-- Settles O15: the low nibble is no operand, and each skip is `skipIf` on the comparison. -/
theorem skipsOnRegisters : Obligations.SkipsOnRegisters := by
  refine fun x y n s => ⟨decode_wordXYN_seReg x y n, decode_wordXYN_sneReg x y n, ?equal, ?different⟩
  case equal => exact ⟨s.skipIf (s.reg x == s.reg y), rfl, skipIf_beq_pc .., skipIf_reg .., skipIf_status ..⟩
  case different => exact ⟨s.skipIf (s.reg x != s.reg y), rfl, skipIf_bne_pc .., skipIf_reg .., skipIf_status ..⟩

/-! ## The frame of the register instructions (R110) -/

section
variable {s t : State}

/-- One register write leaves the other registers and everything else alone. -/
theorem frame_of_setReg {x : Nibble} {b : Byte} (h : (.next (s.setReg x b) : Result State) = .next t) :
    t = { s with v := t.v } ∧ ∀ r, r ≠ x → t.reg r = s.reg r := by
  obtain rfl := Host.Outcome.next.inj h
  exact ⟨setReg_eq .., fun r hr => reg_setReg_of_ne s b hr⟩

/-- Two register writes leave the other registers and everything else alone. -/
theorem frame_of_setReg_setReg {p q : Nibble} {a b : Byte}
    (h : (.next ((s.setReg p a).setReg q b) : Result State) = .next t) :
    t = { s with v := t.v } ∧ ∀ r, r ≠ p → r ≠ q → t.reg r = s.reg r := by
  obtain rfl := Host.Outcome.next.inj h
  refine ⟨rfl, fun r hp hq => ?_⟩
  rw [reg_setReg_of_ne _ b hq, reg_setReg_of_ne s a hp]

/-- A write to V[F] and then one to V[x]. -/
theorem frame_of_setFlag_setReg {x : Nibble} {a b : Byte}
    (h : (.next ((s.setReg flagReg a).setReg x b) : Result State) = .next t) :
    t = { s with v := t.v } ∧ ∀ r, r ≠ x → r ≠ 0xF#4 → t.reg r = s.reg r := by
  obtain ⟨hframe, hregs⟩ := frame_of_setReg_setReg h
  exact ⟨hframe, fun r hx hflag => hregs r hflag hx⟩

end

/-- Settles O29: the instructions of the first kind are one register write, those of the second one write each to V[x] and V[F] in
one order or the other. -/
theorem registerInstructionFrame : Obligations.RegisterInstructionFrame := by
  intro i x s t h
  have hread : ∀ a, t.readByte a = s.readByte a := readByte_of_mem (exec_mem h)
  refine ⟨fun hi => ?one, fun hi => ?flagged⟩
  case one =>
    have hframe : t = { s with v := t.v } ∧ ∀ r, r ≠ x → t.reg r = s.reg r := by
      obtain ⟨nn, rfl | rfl⟩ | ⟨y, rfl | rfl | rfl | rfl⟩ := hi <;> exact frame_of_setReg h
    exact ⟨hframe.1, hframe.2, hread⟩
  case flagged =>
    have hframe : t = { s with v := t.v } ∧ ∀ r, r ≠ x → r ≠ 0xF#4 → t.reg r = s.reg r := by
      obtain ⟨y, rfl | rfl | rfl | rfl | rfl⟩ := hi
      · exact frame_of_setFlag_setReg h
      · obtain ⟨flag, result, hsub⟩ := execSubWith_eq_setReg s Config.subOperands Config.subUnderflow x y
        exact frame_of_setFlag_setReg (hsub.symm.trans h)
      · exact frame_of_setReg_setReg h
      · exact frame_of_setReg_setReg h
      · exact frame_of_setReg_setReg h
    exact ⟨hframe.1, hframe.2, hread⟩

/-! ## The arithmetic primitives as numbers (00_scope.md R20, R21) -/

section
variable (a b : Byte)

theorem sub_toNat_of_lt {a b : Byte} (h : a.toNat < b.toNat) : (a - b).toNat = a.toNat + 256 - b.toNat := by
  have hb : b.toNat < 256 := b.isLt
  rw [BitVec.toNat_sub]
  omega

theorem sub8_of_le {a b : Byte} (h : b.toNat ≤ a.toNat) (p : SubUnderflow) : sub8 p a b = a - b := if_pos h

theorem sub8_wrap : sub8 .wrap a b = a - b := by
  unfold sub8
  split <;> rfl

theorem sub8_saturate_of_lt {a b : Byte} (h : a.toNat < b.toNat) : sub8 .saturate a b = 0#8 := if_neg (Nat.not_le.mpr h)

/-- The bare subtraction where it does not underflow. -/
theorem sub8_toNat_of_le {a b : Byte} (h : b.toNat ≤ a.toNat) (p : SubUnderflow) :
    (sub8 p a b).toNat = a.toNat - b.toNat :=
  (congrArg BitVec.toNat (sub8_of_le h p)).trans (BitVec.toNat_sub_of_le h)

/-- The bare subtraction under underflow (D10). -/
theorem sub8_toNat_of_lt {a b : Byte} (h : a.toNat < b.toNat) (p : SubUnderflow) :
    match p with
    | .wrap => (sub8 p a b).toNat = a.toNat + 256 - b.toNat
    | .saturate => (sub8 p a b).toNat = 0 := by
  cases p with
  | wrap => exact (congrArg BitVec.toNat (sub8_wrap a b)).trans (sub_toNat_of_lt h)
  | saturate => exact congrArg BitVec.toNat (sub8_saturate_of_lt h)

theorem flagOf_addSaturates : flagOf (addSaturates a b) = if 255 < a.toNat + b.toNat then 1#8 else 0#8 := by
  simp only [flagOf, addSaturates, decide_eq_true_eq]

theorem flagOf_above : flagOf (above a b) = if b.toNat < a.toNat then 1#8 else 0#8 := by
  simp only [flagOf, above, decide_eq_true_eq]

theorem shl1_toNat : (shl1 a).toNat = 2 * a.toNat % 256 := by
  rw [shl1, BitVec.toNat_shiftLeft, Nat.shiftLeft_eq, Nat.mul_comm]

/-- The mask 0x80 keeps the top bit, which says whether the byte is at least 128. -/
theorem shlFlag_eq : shlFlag a = if 128 ≤ a.toNat then 0x80#8 else 0x00#8 := by
  have htop : a.getLsbD 7 = decide (128 ≤ a.toNat) := BitVec.msb_eq_decide a
  have hmask : shlFlag a = if a.getLsbD 7 then 0x80#8 else 0x00#8 := BitVec.and_twoPow a 7
  simp only [hmask, htop, decide_eq_true_eq]

end

/-- Settles O30: the subtraction underflows exactly where the second operand is the larger one. -/
theorem bareSubtractionUnderflow : Obligations.BareSubtractionUnderflow :=
  fun _ _ => ⟨fun h p => sub8_toNat_of_le h p, fun h => ⟨sub8_toNat_of_lt h .wrap, sub8_saturate_of_lt h⟩⟩

/-! ## ADD, SUB, SUBN and SHL (R117 to R123) -/

/-- Settles O22: the flag is written first, so with x = F the sum is what stays. -/
theorem addRegistersSaturateWithFlag : Obligations.AddRegistersSaturateWithFlag := by
  refine fun x y s => ⟨decode_wordXYN_addReg x y, _, rfl, ?sum, fun hx => ?flag⟩
  case sum => rw [reg_setReg_self, satadd8_toNat]
  case flag => rw [setReg_reg_flag _ _ hx, reg_setReg_self, flagOf_addSaturates]

section
variable (operands : SubOperands) (policy : SubUnderflow) (x y : Nibble) (s : State)

/-- What SUB writes to V[x] where V[x] is above V[y] (R119, R120). -/
def subResult : Byte :=
  subDifference operands policy (s.reg x) (s.reg y) ((s.setReg flagReg 1#8).reg x) ((s.setReg flagReg 1#8).reg y)

theorem execSubWith_above (h : (s.reg y).toNat < (s.reg x).toNat) : execSubWith operands policy x y s =
    .next ((s.setReg flagReg 1#8).setReg x (subResult operands policy x y s)) := if_pos (decide_eq_true h)

theorem execSubWith_not_above (h : (s.reg x).toNat ≤ (s.reg y).toNat) : execSubWith operands policy x y s =
    .next ((s.setReg flagReg 0#8).setReg x 0#8) := if_neg (by rw [above, decide_eq_true_eq]; exact Nat.not_lt.mpr h)

variable {x y s}

/-- Away from V[F] both readings of the operands are the old values. -/
theorem subResult_toNat (hx : x ≠ 0xF#4) (hy : y ≠ 0xF#4) (h : (s.reg y).toNat < (s.reg x).toNat) :
    (subResult operands policy x y s).toNat = (s.reg x).toNat - (s.reg y).toNat := by
  have hle : (s.reg y).toNat ≤ (s.reg x).toNat := Nat.le_of_lt h
  rw [subResult, reg_setReg_of_ne s _ hx, reg_setReg_of_ne s _ hy]
  cases operands with
  | reread => exact sub8_toNat_of_le hle policy
  | latched => exact BitVec.toNat_sub_of_le hle

theorem subResult_latched_toNat (h : (s.reg y).toNat < (s.reg x).toNat) :
    (subResult .latched policy x y s).toNat = (s.reg x).toNat - (s.reg y).toNat :=
  BitVec.toNat_sub_of_le (Nat.le_of_lt h)

/-- With y = F the operand read again is the flag just written. -/
theorem subResult_reread_of_flag_operand (hx : x ≠ 0xF#4) (h : (s.reg 0xF#4).toNat < (s.reg x).toNat) :
    (subResult .reread policy x 0xF#4 s).toNat = (s.reg x).toNat - 1 := by
  have hone : (1#8).toNat ≤ (s.reg x).toNat := Nat.succ_le_of_lt (Nat.zero_lt_of_lt h)
  have hresult : subResult .reread policy x 0xF#4 s = sub8 policy (s.reg x) 1#8 := by
    rw [subResult, reg_setReg_of_ne s _ hx, reg_setReg_self]
    rfl
  rw [hresult, sub8_toNat_of_le hone]
  rfl

/-- With x = F the first operand read again is the flag just written. -/
theorem subResult_reread_of_flag_destination (hy : y ≠ 0xF#4) :
    subResult .reread policy 0xF#4 y s = sub8 policy 1#8 (s.reg y) := by
  rw [subResult, reg_setReg_self, reg_setReg_of_ne s _ hy]
  rfl

end

/-- Settles O23: with V[x] above V[y] the difference is exact, and otherwise 0 is what the floor leaves. -/
theorem subtractFloorsAtZero : Obligations.SubtractFloorsAtZero := by
  refine fun x y s => ⟨decode_wordXYN_sub x y, fun hx hy => ?_⟩
  by_cases h : (s.reg y).toNat < (s.reg x).toNat
  · refine ⟨_, execSubWith_above _ _ x y s h, ?_, ?_⟩
    · rw [reg_setReg_self, subResult_toNat _ _ hx hy h]
    · rw [setReg_reg_flag _ _ hx, reg_setReg_self, if_pos h]
  · have hle : (s.reg x).toNat ≤ (s.reg y).toNat := Nat.not_lt.mp h
    refine ⟨_, execSubWith_not_above _ _ x y s hle, ?_, ?_⟩
    · rw [reg_setReg_self, Nat.sub_eq_zero_of_le hle]
      rfl
    · rw [setReg_reg_flag _ _ hx, reg_setReg_self, if_neg h]

/-- The clause of O24 for V[x] above V[y], on the value that SUB writes to V[x], for given open parameters (R120). -/
theorem subResult_on_flag {x y : Nibble} {s : State} (hflag : x = 0xF#4 ∨ y = 0xF#4)
    (h : (s.reg y).toNat < (s.reg x).toNat) (operands : SubOperands) (policy : SubUnderflow) :
    match operands with
    | .latched => (subResult operands policy x y s).toNat = (s.reg x).toNat - (s.reg y).toNat
    | .reread =>
      (x ≠ 0xF#4 → (subResult operands policy x y s).toNat = (s.reg x).toNat - 1) ∧
      (x = 0xF#4 → ((s.reg y).toNat = 0 → (subResult operands policy x y s).toNat = 1) ∧
        ((s.reg y).toNat = 1 → (subResult operands policy x y s).toNat = 0) ∧
        (2 ≤ (s.reg y).toNat → match policy with
          | .wrap => (subResult operands policy x y s).toNat = 257 - (s.reg y).toNat
          | .saturate => (subResult operands policy x y s).toNat = 0)) := by
  cases operands with
  | latched => exact subResult_latched_toNat policy h
  | reread =>
    refine ⟨fun hx => ?operand, ?destination⟩
    case operand =>
      obtain rfl : y = 0xF#4 := hflag.resolve_left hx
      exact subResult_reread_of_flag_operand policy hx h
    case destination =>
      rintro rfl
      have hy : y ≠ 0xF#4 := fun hy => absurd h (hy ▸ Nat.lt_irrefl _)
      simp only [subResult_reread_of_flag_destination policy hy]
      have hone : (1#8).toNat = 1 := rfl
      refine ⟨fun h0 => ?_, fun h1 => ?_, fun h2 => ?_⟩
      · rw [sub8_toNat_of_le (by omega), h0]; rfl
      · rw [sub8_toNat_of_le (by omega), h1]; rfl
      · exact sub8_toNat_of_lt (a := 1#8) (by omega) policy

/-- Settles O24: the comparison reads the old values, and where V[x] is above V[y] the result is `subResult`. -/
theorem subtractOnTheFlagRegister : Obligations.SubtractOnTheFlagRegister := by
  intro x y s hflag
  by_cases h : (s.reg y).toNat < (s.reg x).toNat
  · refine ⟨_, execSubWith_above _ _ x y s h, fun hle => absurd h (Nat.not_lt.mpr hle), fun _ => ⟨fun hx => ?_, ?_⟩⟩
    · rw [setReg_reg_flag _ _ hx, reg_setReg_self]
    · simp only [reg_setReg_self]
      exact subResult_on_flag hflag h _ _
  · refine ⟨_, execSubWith_not_above _ _ x y s (Nat.not_lt.mp h), fun _ => ⟨reg_setReg_self .., ?_⟩, fun hlt => absurd hlt h⟩
    rw [reg_setReg]
    split
    · rfl
    · exact reg_setReg_self ..

/-- Settles O26: V[x] is written before the comparison reads it, so with x = y the comparison is of one value with itself. -/
theorem subtractReverseComparesNewValue : Obligations.SubtractReverseComparesNewValue := by
  refine fun x y s => ⟨decode_wordXYN_subn x y, _, rfl, sub8 Config.subUnderflow (s.reg y) (s.reg x),
    fun h => sub8_toNat_of_le h _, fun h => sub8_toNat_of_lt h _, fun hx => setReg_setFlag_reg s _ _ hx, fun hxy => ?differ,
    fun hxy => ?equal⟩
  case differ =>
    rw [reg_setReg_self, reg_setReg_self, reg_setReg_of_ne s _ (Ne.symm hxy), flagOf_above]
  case equal =>
    subst hxy
    rw [reg_setReg_self, flagOf_above, if_neg (Nat.lt_irrefl _)]

/-- Settles O27: V[y] is read before both writes, and the flag write comes last. -/
theorem shiftLeftLeavesRawFlag : Obligations.ShiftLeftLeavesRawFlag := by
  refine fun x y s => ⟨decode_wordXYN_shl x y, _, rfl, fun hx => ?double, ?flag⟩
  case double => rw [setReg_setFlag_reg s _ _ hx, shl1_toNat]
  case flag => rw [reg_setReg_self, shlFlag_eq]

/-! ## RND (R125) -/

/-- Settles O28: the instruction is one write of the masked draw to V[x] in the state with the counter advanced. -/
theorem randomIsMaskedDraw : Obligations.RandomIsMaskedDraw := by
  refine fun x nn s => ⟨decode_wordXNn_rnd x nn, _, Config.randomByte s.free, rfl, fun k _ => ?bits, rfl, rfl, rfl,
    fun r hr => ?others⟩
  case bits => rw [reg_setReg_self, BitVec.getLsbD_and]
  case others => rw [reg_setReg_of_ne _ _ hr, takeFree_reg]

end Sys2Proof.Machine
end

section
/-! PROOFS about the index register and the memory load (43_index_memory.md R131, R132). -/

namespace Sys2Proof.Machine

/-- FX1E above 0xFFFF, for a given open parameter (D20). -/
theorem execAddIWith_above {x : Nibble} {s : State} (h : 0xFFFF < s.idx.toNat + (s.reg x).toNat) (p : IdxOverflow) :
    match p with
    | .wrap => ∃ t, execAddIWith p x s = .next t ∧ t.idx.toNat = s.idx.toNat + (s.reg x).toNat - 0x10000 ∧
        t = { s with idx := t.idx }
    | .fault => execAddIWith p x s = .next { s with status := .faulted .idxOverflow s.idx } := by
  cases p with
  | wrap =>
    obtain ⟨-, hsum⟩ | ⟨-, hp, -⟩ := execAddIWith_cases .wrap x s
    · refine ⟨_, hsum, ?_, rfl⟩
      have hidx : s.idx.toNat < 2 ^ 16 := s.idx.isLt
      have hv : (s.reg x).toNat < 2 ^ 8 := (s.reg x).isLt
      rw [setIdx_idx, BitVec.toNat_ofNat]
      omega
    · cases hp
  | fault =>
    obtain ⟨hle | hp, -⟩ | ⟨-, -, hfault⟩ := execAddIWith_cases .fault x s
    · exact absurd h (Nat.not_lt.mpr hle)
    · cases hp
    · exact hfault

/-- Settles O32: at most 0xFFFF the sum is exact, and above it the open parameter decides. -/
theorem addToIndex : Obligations.AddToIndex := by
  refine fun x s => ⟨decode_wordXNn_addI x, fun hle => ?exact, fun hgt => execAddIWith_above hgt Config.idxOverflow⟩
  case exact =>
    obtain ⟨-, hsum⟩ | ⟨hgt, -, -⟩ := execAddIWith_cases Config.idxOverflow x s
    · exact ⟨_, hsum, Nat.mod_eq_of_lt (Nat.lt_succ_of_le hle), rfl⟩
    · exact absurd hgt (Nat.not_lt.mpr hle)

/-- A register after FX65's load: the byte at idx plus its number up to V[x], the old value above. -/
theorem loadRegs_reg (s : State) (x r : Nibble) :
    ({ s with v := loadRegsFrom s.v 0 (s.mem.lookupBytes s.idx.toNat (x.toNat + 1)) } : State).reg r =
      if r.toNat ≤ x.toNat then s.mem.lookup (s.idx.toNat + r.toNat) else s.reg r := by
  simp only [State.reg, loadRegsFrom_getElem, Memory.lookupBytes_length, Memory.lookupBytes_getElem, Nat.zero_le, true_and,
    Nat.zero_add, Nat.sub_zero, Nat.lt_succ_iff, dite_eq_ite]

/-- Settles O33: the checked range is the one of V[0] to V[x], and the load is one update of the register file. -/
theorem loadRegistersFromMemory : Obligations.LoadRegistersFromMemory := by
  intro x s
  obtain ⟨hin, hload⟩ | ⟨hend, hfault⟩ := execLdVxI_cases x s
  · refine ⟨decode_wordXNn_ldVxI x, fun _ => ⟨_, hload, rfl, fun r => ⟨fun hr => ?loaded, fun hr => ?above⟩⟩,
      fun hout => absurd hin (Nat.not_lt.mpr hout)⟩
    case loaded =>
      rw [loadRegs_reg, if_pos hr, readByte_eq s (Nat.lt_of_le_of_lt (Nat.add_le_add_left hr _) hin)]
    case above => rw [loadRegs_reg, if_neg (Nat.not_le.mpr hr)]
  · exact ⟨decode_wordXNn_ldVxI x, fun hin => absurd hend (Nat.not_le.mpr hin), fun _ => hfault⟩

end Sys2Proof.Machine
end

section
/-! PROOFS about the display (44_display.md): the draw, the two clears and the current slot. -/

namespace Sys2Proof.Machine

/-! ## DRW (R146 to R152) -/

theorem readByte_eq_some_iff {s : State} {a : Nat} {u : Byte} :
    s.readByte a = some u ↔ a < memSize ∧ s.mem.lookup a = u := by
  simp only [State.readByte, Option.ite_none_right_eq_some, Option.some.injEq]

/-- Bytes that read one by one are the bytes of the checked range. -/
theorem rows_eq_lookupBytes {s : State} {rows : List Byte} {a n : Nat} (hlen : rows.length = n)
    (hread : ∀ k (h : k < rows.length), s.readByte (a + k) = some rows[k]) :
    (n = 0 ∨ a + n ≤ memSize) ∧ rows = s.mem.lookupBytes a n := by
  subst hlen
  constructor
  · cases hn : rows.length with
    | zero => exact .inl rfl
    | succ k => exact .inr (readByte_eq_some_iff.mp (hread k (by omega))).1
  · refine List.ext_getElem (Memory.lookupBytes_length ..).symm fun k h h' => ?_
    rw [Memory.lookupBytes_getElem]
    exact (readByte_eq_some_iff.mp (hread k h)).2.symm

/-- DRW with its sprite in memory draws the sprite. -/
theorem exec_drw_of_rows {x y n : Nibble} {s : State} {rows : List Byte} (hlen : rows.length = n.toNat)
    (hread : ∀ k (h : k < rows.length), s.readByte (s.idx.toNat + k) = some rows[k]) :
    exec (.drw x y n) s = .next (s.drawn (s.reg x) (s.reg y) rows) := by
  obtain ⟨hin, rfl⟩ := rows_eq_lookupBytes hlen hread
  obtain ⟨-, hdraw⟩ | ⟨⟨hn, hend⟩, -⟩ := execDrwWith_cases Config.drawVfClear x y n s
  · exact hdraw
  · exact absurd hend (Nat.not_lt.mpr (hin.resolve_left hn))

section
variable (s : State) {vx vy : Byte} {rows : List Byte} {r : Fin screenH} {c : Fin screenW}

theorem drawn_pixel_covered (h : spriteCovers vx vy rows r c) : (s.drawn vx vy rows).pixel (otherSlot s.cur) r c =
    if s.pixel (otherSlot s.cur) r c = 0#8 then 255#8 else 0#8 := by
  rw [State.pixel, drawn_slot_other, (drawGrid_spec ..).1, if_pos h, togglePixel, ite_not]
  rfl

theorem drawn_pixel_uncovered (h : ¬ spriteCovers vx vy rows r c) :
    (s.drawn vx vy rows).pixel (otherSlot s.cur) r c = s.pixel (otherSlot s.cur) r c := by
  rw [State.pixel, drawn_slot_other, (drawGrid_spec ..).1, if_neg h]
  rfl

variable (vx vy rows)

theorem drawn_reg {q : Nibble} (h : q ≠ 0xF#4) : (s.drawn vx vy rows).reg q = s.reg q := by
  rw [State.drawn, setDrawFlag_reg, if_neg h, setSlot_reg]

/-- V[F] after a draw (R150). -/
theorem drawn_reg_flag : (s.drawn vx vy rows).reg 0xF#4 =
    if (drawGrid (s.slot (otherSlot s.cur)) vx vy rows).collision then 1#8
    else if Config.drawVfClear then 0#8 else s.reg 0xF#4 := by
  rw [State.drawn, setDrawFlag_reg, if_pos rfl, setSlot_reg]

end

/-- Settles O38: the draw toggles the covered pixels of the slot that is not current, and then writes V[F] at most. -/
theorem drawTogglesCoveredPixels : Obligations.DrawTogglesCoveredPixels := by
  intro x y n s rows
  refine ⟨decode_wordXYN_drw x y n, fun hlen hread => ⟨_, exec_drw_of_rows hlen hread, fun r c => ?pixels, drawn_eq .., ?regs⟩⟩
  case pixels =>
    exact ⟨drawn_pixel_covered s, drawn_pixel_uncovered s, congrArg (gridPixel · r c) (drawn_slot_cur ..)⟩
  case regs => exact fun _ h => drawn_reg _ _ _ _ h

/-- Settles O39: the collision bit of the draw is whether a covered pixel was on, and it decides what V[F] becomes. -/
theorem drawReportsErasure : Obligations.DrawReportsErasure := by
  intro x y n s rows hlen hread
  have hcollision := (drawGrid_spec (s.slot (otherSlot s.cur)) (s.reg x) (s.reg y) rows).2
  refine ⟨_, exec_drw_of_rows hlen hread, fun herased => ?_, fun hkept => ?_⟩
  · rw [drawn_reg_flag, if_pos (hcollision.mpr herased)]
  · rw [drawn_reg_flag, if_neg (mt hcollision.mp hkept)]

/-- Settles O40: the range check comes before the draw. -/
theorem drawBeyondMemoryFaults : Obligations.DrawBeyondMemoryFaults := by
  intro x y n s hn hend
  obtain ⟨hzero | hin, -⟩ | ⟨-, hfault⟩ := execDrwWith_cases Config.drawVfClear x y n s
  · exact absurd hzero (Nat.ne_of_gt hn)
  · exact absurd hend (Nat.not_lt.mpr hin)
  · exact hfault

/-! ## CLS (R148) -/

/-- Settles O36: the second clear leaves its slot blank, and nothing between the clears writes a pixel of the first one's slot. -/
theorem clearScreenBlanksBothSlots : Obligations.ClearScreenBlanksBothSlots := by
  refine fun s => ⟨s.cleared, exec_cls s, fun k r c => ?pixels, cleared_v s, cleared_idx s, cleared_pc s, (cleared_kept s).mem,
    cleared_status s, fun hquiet => ?quiet⟩
  case pixels =>
    rw [State.pixel, cleared_slot]
    exact gridPixel_blankGrid r c
  case quiet =>
    rw [cleared_quiet s hquiet]
    exact ⟨rfl, rfl⟩

section
variable (s : State)

theorem halfCleared_cur : s.halfCleared.cur = s.cur := by rw [State.halfCleared, setSlot_cur]

theorem halfCleared_outputs : s.halfCleared.outputs = s.outputs := by rw [State.halfCleared, setSlot_outputs]

theorem halfCleared_slot (k : Slot) : s.halfCleared.slot k = if k = clearedFirst s then blankGrid else s.slot k := by
  rw [State.halfCleared, setSlot_slot]
  congr 1

theorem cleared_outputs : s.cleared.outputs = (performAll s.halfCleared s.inside).outputs := by
  rw [State.cleared, setSlot_outputs]

/-- The outputs of a sequence with a read in it: what the read answers is the slot that is current at its place. -/
theorem performAll_read_outputs (earlier later : List SharedOp) : ∃ before after,
    (performAll s (earlier ++ .readCurrent :: later)).outputs =
      after ++ .frame (s.slot (currentAfter s.cur earlier)) :: (before ++ s.outputs) ∧
    before.length = earlier.countP (·.answers) ∧ after.length = later.countP (·.answers) := by
  obtain ⟨before, hbefore, hbeforeLen⟩ := performAll_outputs earlier s
  obtain ⟨after, hafter, hafterLen⟩ := performAll_outputs later (performShared (performAll s earlier) .readCurrent)
  have hsplit : performAll s (earlier ++ .readCurrent :: later) =
      performAll (performShared (performAll s earlier) .readCurrent) later := List.foldl_append
  have hanswer : currentGrid (performAll s earlier) = s.slot (currentAfter s.cur earlier) := by
    rw [currentGrid, performAll_cur, (performAll_frame earlier s).slot]
  refine ⟨before, after, ?_, hbeforeLen, hafterLen⟩
  rw [hsplit, hafter, performShared, emit_outputs, hanswer, hbefore]

end

/-- Settles O37: the transactions between the clears begin in the half-cleared state, no one of them writes a pixel, and the read
answers the slot that the swaps before it have made current. -/
theorem readBetweenTheClears : Obligations.ReadBetweenTheClears := by
  intro s earlier later hinside
  obtain ⟨before, after, hout, hbefore, hafter⟩ := performAll_read_outputs s.halfCleared earlier later
  have hfirst : clearedFirst s = Config.clearedFirst s.free := if_neg (by rw [hinside]; simp)
  rw [← hinside, ← cleared_outputs, halfCleared_cur, halfCleared_outputs, halfCleared_slot, hfirst] at hout
  by_cases hblank : Config.clearedFirst s.free = currentAfter s.cur earlier
  · rw [if_pos hblank.symm] at hout
    exact ⟨s.cleared, _, before, after, exec_cls s, hout, hbefore, hafter, .inl ⟨hblank, gridPixel_blankGrid⟩⟩
  · rw [if_neg (Ne.symm hblank)] at hout
    exact ⟨s.cleared, _, before, after, exec_cls s, hout, hbefore, hafter, .inr ⟨hblank, fun _ _ => rfl⟩⟩

/-! ## The current slot (R144, R145) -/

theorem currentAfter_of_no_swap {ops : List SharedOp} (h : .swap ∉ ops) (k : Slot) : currentAfter k ops = k := by
  rw [currentAfter, List.count_eq_zero_of_not_mem h]
  rfl

theorem performShared_cur {op : SharedOp} (h : op ≠ .swap) (s : State) : (performShared s op).cur = s.cur :=
  (performAll_cur [op] s).trans (currentAfter_of_no_swap (by simpa using h.symm) s.cur)

section
variable {s t : State} {i : Instr}

/-- An instruction that changes `cur` is a CLS with a swap inside. -/
theorem Effect.swap_inside (h : Effect s i t) (hcur : t.cur ≠ s.cur) : i = .cls ∧ SharedOp.swap ∈ s.inside := by
  cases h with
  | same | registers | control | index | event | raised => exact absurd rfl hcur
  | drawn => exact absurd (by rw [drawn_eq]) hcur
  | cleared =>
    refine ⟨rfl, by_contra fun hno => hcur ?_⟩
    rw [cleared_cur, currentAfter_of_no_swap hno]

/-- A cycle that changes `cur` executes such a CLS. -/
theorem cycle_swap_inside (h : cycle s = .next t) (hcur : t.cur ≠ s.cur) :
    (∃ w, s.fetchWord = some w ∧ decode w = .cls) ∧ SharedOp.swap ∈ s.inside := by
  obtain ⟨-, rfl⟩ | ⟨-, -, -, rfl⟩ | ⟨-, -, -, w, hw, hexec⟩ := cycle_next_cases s h
  · exact absurd rfl hcur
  · exact absurd (fetchFault_cur s) hcur
  · obtain ⟨hcls, hswap⟩ := (effect_of_exec hexec).swap_inside hcur
    exact ⟨⟨w, hw, hcls⟩, hswap⟩

/-- A request that changes `cur` is a swap, a reset or a cycle that executes such a CLS. -/
theorem perform_changes_cur {r : Request} (h : perform r s = .next t) (hcur : t.cur ≠ s.cur) :
    r = .shared .swap ∨ r = .reset ∨
    (r = .step ∧ (∃ w, s.fetchWord = some w ∧ decode w = .cls) ∧ SharedOp.swap ∈ s.inside) := by
  cases r with
  | step => exact .inr (.inr ⟨rfl, cycle_swap_inside h hcur⟩)
  | shared op =>
    obtain rfl := Host.Outcome.next.inj h
    exact .inl (congrArg Request.shared (by_contra fun hop => hcur (performShared_cur hop s)))
  | reset => exact .inr (.inl rfl)
  | load image =>
    rw [load_next h] at hcur
    exact absurd rfl hcur
  | stop which =>
    obtain rfl := Host.Outcome.next.inj h
    exact absurd (stop_cur ..) hcur

/-- A swap step flips `cur` and writes no pixel. -/
theorem step_swap_pixels (h : s.nextRequest = .shared .swap) :
    ∃ t, step s = .next t ∧ t.cur = otherSlot s.cur ∧ ∀ k r c, t.pixel k r c = s.pixel k r c := by
  refine ⟨_, step_swap h, rfl, fun k r c => congrArg (gridPixel · r c) ?_⟩
  have hslot : State.slot { s.popped with cur := otherSlot s.cur } k = s.popped.slot k := by cases k <;> rfl
  rw [hslot, popped_slot]

end

/-- Settles O42: two flips give the slot back, and of the requests only those three can change `cur`. -/
theorem onlySwapChangesCurrentSlot : Obligations.OnlySwapChangesCurrentSlot := by
  refine ⟨fun s hswap => ?flip, fun s t hstep hcur => ?only⟩
  case flip =>
    obtain ⟨t, hstep, htcur, hpixel⟩ := step_swap_pixels hswap
    refine ⟨t, hstep, htcur, hpixel, fun hagain => ?_⟩
    obtain ⟨u, hstep', hucur, hpixel'⟩ := step_swap_pixels hagain
    refine ⟨u, hstep', ?_, fun k r c => (hpixel' k r c).trans (hpixel k r c)⟩
    rw [hucur, htcur, otherSlot_otherSlot]
  case only =>
    rw [← popped_cur s] at hcur
    obtain hswap | hreset | ⟨hdue, hcls, hinside⟩ := perform_changes_cur hstep hcur
    · exact .inl hswap
    · exact .inr (.inl hreset)
    · exact .inr (.inr ⟨hdue, popped_fetchWord s ▸ hcls, hinside⟩)

end Sys2Proof.Machine
end

section
/-! PROOFS about one step: the cycle (40_cycle.md), the ports (70_reset_and_hazards.md R180 to R184), and what lasts until reset. -/

namespace Sys2Proof.Machine

/-! ## The cycle (R90 to R99) -/

section
variable {s : State}

theorem popped_fetched (s : State) : s.popped.fetched = { s.popped with pc := s.pc + 2#16, boot := .started } := by
  rw [State.fetched, popped_pc]

/-- An enabled cycle with a whole word at pc executes it. -/
theorem step_exec (hdue : s.CycleDue) (hrun : s.status = .running) (hdrv : s.driverStopped = false) {w : Half}
    (hw : s.fetchWord = some w) : step s = exec (decode w) { s.popped with pc := s.pc + 2#16, boot := .started } := by
  rw [step_cycle s hdue, ← popped_fetched]
  exact cycle_exec _ ⟨(popped_status s).trans hrun, (popped_driverStopped s).trans hdrv⟩ ((popped_fetchWord s).trans hw)

/-- The word at pc from its two bytes, the one at the lower address first (20_memory.md R53). -/
theorem fetchWord_of_bytes {hi lo : Byte} (hhi : s.readByte s.pc.toNat = some hi)
    (hlo : s.readByte (s.pc.toNat + 1) = some lo) : s.fetchWord = some (joinWord hi lo) := by
  simp only [State.fetchWord, hhi, hlo]

theorem fetchWord_of_toNat {hi lo : Byte} {w : Half} (hhi : s.readByte s.pc.toNat = some hi)
    (hlo : s.readByte (s.pc.toNat + 1) = some lo) (hw : w.toNat = 256 * hi.toNat + lo.toNat) : s.fetchWord = some w := by
  have hjoin : joinWord hi lo = w := BitVec.eq_of_toNat_eq ((joinWord_toNat hi lo).trans hw.symm)
  rw [fetchWord_of_bytes hhi hlo, hjoin]

/-- A cycle request while the cycle is not enabled is taken and nothing else. -/
theorem step_disabled (hdue : s.CycleDue) (hno : ¬ (s.status = .running ∧ s.driverStopped = false)) :
    step s = .next s.popped := by
  rw [step_cycle s hdue]
  exact cycle_disabled _ (by rwa [popped_status, popped_driverStopped])

theorem not_enabled_of_driverStopped (h : s.driverStopped = true) : ¬ (s.status = .running ∧ s.driverStopped = false) :=
  fun he => Bool.false_ne_true (he.2.symm.trans h)

theorem not_running_of_endsBadly (h : s.EndsBadly) : s.status ≠ .running := by
  obtain ⟨cause, addr, hfaulted⟩ := h
  rw [hfaulted]
  exact Status.noConfusion

/-- An enabled cycle at a zero word is a NOP (R93). -/
theorem step_nop (hdue : s.CycleDue) (hrun : s.status = .running) (hdrv : s.driverStopped = false)
    (hhi : s.readByte s.pc.toNat = some 0#8) (hlo : s.readByte (s.pc.toNat + 1) = some 0#8) :
    step s = .next { s.popped with pc := s.pc + 2#16, boot := .started } := by
  have hword : decode (joinWord 0#8 0#8) = .nop := by decide
  rw [step_exec hdue hrun hdrv (fetchWord_of_bytes hhi hlo), hword]
  rfl

/-- A fetch beyond memory (R91). -/
theorem step_fetchOob (hdue : s.CycleDue) (hrun : s.status = .running) (hdrv : s.driverStopped = false)
    (hpc : 0x0FFF ≤ s.pc.toNat) :
    step s = .next { s.popped with status := .faulted .fetchOob s.pc, boot := .started } := by
  rw [step_fetchFault s hdue hrun hdrv (Nat.succ_le_succ hpc)]
  exact congrArg (fun a => Host.Outcome.next { s.popped with status := .faulted .fetchOob a, boot := .started }) (popped_pc s)

end

/-- Settles O6: the two bytes join to the word, and the cycle runs its decoding after fetch. -/
theorem stepRunsDecodedInstruction : Obligations.StepRunsDecodedInstruction := by
  rintro s hi lo w i hdue hrun hdrv hhi hlo hw rfl
  exact step_exec hdue hrun hdrv (fetchWord_of_toNat hhi hlo hw)

/-- Settles O7: the second byte is at 0x1000 or beyond. -/
theorem fetchBeyondMemoryFaults : Obligations.FetchBeyondMemoryFaults := fun _ => step_fetchOob

/-- Settles O8: FAULTED and a stopped driver are what a cycle is not enabled in. -/
theorem noCycleWhileFaultedOrStopped : Obligations.NoCycleWhileFaultedOrStopped := by
  refine ⟨popped_eq, fun s hdue hno => step_disabled hdue ?_⟩
  obtain hbad | hstopped := hno
  · exact fun he => not_running_of_endsBadly hbad he.1
  · exact not_enabled_of_driverStopped hstopped

/-- Settles O11: the zero word is NOP, whose meaning is the state it starts in. -/
theorem nopOnlyAdvancesPc : Obligations.NopOnlyAdvancesPc := ⟨fun _ => rfl, fun _ => step_nop⟩

/-- Settles O12: the event carries pc less 2, which is the address that fetch has advanced. -/
theorem unknownIsLoggedNoOp : Obligations.UnknownIsLoggedNoOp := by
  have hexec (w : Half) (s : State) :
      exec (.unknown w) s = .next { s with outputs := .unknownOp (s.pc - 2#16) w :: s.outputs } := rfl
  refine ⟨hexec, fun s hi lo w hdue hrun hdrv hhi hlo hw hspace => ?_⟩
  rw [step_exec hdue hrun hdrv (fetchWord_of_toNat hhi hlo hw), decode_of_inUnknownSpace hspace, hexec, popped_outputs,
    BitVec.add_sub_cancel]

/-- An address below 0x1000 survives the 12 bits of a jump's target (R101). -/
theorem zext16_setWidth {a : Half} (h : a.toNat < 0x1000) : zext16 (a.setWidth 12) = a := by
  apply BitVec.eq_of_toNat_eq
  rw [zext16_toNat, BitVec.toNat_setWidth, Nat.mod_eq_of_lt h]

/-- Settles O18: the jump writes the pc that fetch has advanced back to the address of the jump. -/
theorem selfJumpRepeats : Obligations.SelfJumpRepeats := by
  rintro s ⟨hrun, hpc, hword⟩ hdue hdrv
  have htarget : zext16 (s.pc.setWidth 12) = s.popped.pc := (zext16_setWidth (Nat.lt_succ_of_le (Nat.le_succ_of_le hpc))).trans
    (popped_pc s).symm
  rw [step_exec hdue hrun hdrv hword, decode_wordNnn_jp]
  exact congrArg (fun a => Host.Outcome.next { s.popped with pc := a, boot := .started }) htarget

/-- Settles O51: an enabled cycle marks the launch as begun before its instruction, which leaves the mark. -/
theorem cycleEndsLoading : Obligations.CycleEndsLoading := by
  intro s t hdue hrun hdrv hstep
  rw [step_cycle s hdue] at hstep
  obtain ⟨hno, -⟩ | ⟨-, -, -, rfl⟩ | ⟨-, -, -, w, -, hexec⟩ := cycle_next_cases _ hstep
  · exact absurd ⟨(popped_status s).trans hrun, (popped_driverStopped s).trans hdrv⟩ hno
  · exact fetchFault_boot _
  · exact (effect_of_exec hexec).kept.boot.trans (fetched_boot _)

/-! ## No instruction observes the timers (60_exceptions.md R172) -/

/-- The state with other counter values. -/
def State.withTimers (s : State) (d u : Byte) : State := { s with dt := d, st := u }

section
variable (s : State) (d u : Byte)

theorem skipIf_withTimers (c : Bool) : (s.withTimers d u).skipIf c = (s.skipIf c).withTimers d u := by cases c <;> rfl

theorem setSlot_withTimers (k : Slot) (g : Grid) : (s.withTimers d u).setSlot k g = (s.setSlot k g).withTimers d u := by
  cases k <;> rfl

theorem setDrawFlag_withTimers (b c : Bool) : (s.withTimers d u).setDrawFlag b c = (s.setDrawFlag b c).withTimers d u := by
  cases b <;> cases c <;> rfl

theorem withTimers_slot (k : Slot) : (s.withTimers d u).slot k = s.slot k := by cases k <;> rfl

/-- An outcome, and the same outcome with other counter values. -/
def SameButTimers (r r' : Result State) : Prop := ∃ t, r = .next t ∧ r' = .next (t.withTimers d u)

theorem sameButTimers_skip {c : Bool} :
    SameButTimers d u (.next (s.skipIf c)) (.next ((s.withTimers d u).skipIf c)) :=
  ⟨_, rfl, congrArg _ (skipIf_withTimers s d u c)⟩

theorem execSub_sameButTimers (x y : Nibble) : SameButTimers d u (execSub x y s) (execSub x y (s.withTimers d u)) := by
  by_cases h : (s.reg y).toNat < (s.reg x).toNat
  · exact ⟨_, execSubWith_above _ _ x y s h, execSubWith_above _ _ x y (s.withTimers d u) h⟩
  · exact ⟨_, execSubWith_not_above _ _ x y s (Nat.not_lt.mp h),
      execSubWith_not_above _ _ x y (s.withTimers d u) (Nat.not_lt.mp h)⟩

theorem execDrw_sameButTimers (x y n : Nibble) :
    SameButTimers d u (execDrw x y n s) (execDrw x y n (s.withTimers d u)) := by
  obtain ⟨hin, hdraw⟩ | ⟨hout, hfault⟩ := execDrwWith_cases Config.drawVfClear x y n s
  · obtain ⟨-, hdraw'⟩ | ⟨⟨hn, hend⟩, -⟩ := execDrwWith_cases Config.drawVfClear x y n (s.withTimers d u)
    · refine ⟨_, hdraw, hdraw'.trans ?_⟩
      simp only [withTimers_slot, setSlot_withTimers, setDrawFlag_withTimers]
      rfl
    · exact absurd hend (Nat.not_lt.mpr (hin.resolve_left hn))
  · obtain ⟨hin, -⟩ | ⟨-, hfault'⟩ := execDrwWith_cases Config.drawVfClear x y n (s.withTimers d u)
    · exact absurd hout.2 (Nat.not_lt.mpr (hin.resolve_left hout.1))
    · exact ⟨_, hfault, hfault'⟩

theorem execAddI_sameButTimers (x : Nibble) : SameButTimers d u (execAddI x s) (execAddI x (s.withTimers d u)) := by
  obtain ⟨hfits, hsum⟩ | ⟨hbig, hp, hfault⟩ := execAddIWith_cases Config.idxOverflow x s
  · obtain ⟨-, hsum'⟩ | ⟨hbig, hp, -⟩ := execAddIWith_cases Config.idxOverflow x (s.withTimers d u)
    · exact ⟨_, hsum, hsum'⟩
    · exact absurd (hfits.resolve_right (by rw [hp]; exact IdxOverflow.noConfusion)) (Nat.not_le.mpr hbig)
  · obtain ⟨hfits, -⟩ | ⟨-, -, hfault'⟩ := execAddIWith_cases Config.idxOverflow x (s.withTimers d u)
    · exact absurd (hfits.resolve_right (by rw [hp]; exact IdxOverflow.noConfusion)) (Nat.not_le.mpr hbig)
    · exact ⟨_, hfault, hfault'⟩

theorem execLdVxI_sameButTimers (x : Nibble) : SameButTimers d u (execLdVxI x s) (execLdVxI x (s.withTimers d u)) := by
  obtain ⟨hin, hload⟩ | ⟨hout, hfault⟩ := execLdVxI_cases x s
  · obtain ⟨-, hload'⟩ | ⟨hout, -⟩ := execLdVxI_cases x (s.withTimers d u)
    · exact ⟨_, hload, hload'⟩
    · exact absurd hin (Nat.not_lt.mpr hout)
  · obtain ⟨hin, -⟩ | ⟨-, hfault'⟩ := execLdVxI_cases x (s.withTimers d u)
    · exact absurd hin (Nat.not_lt.mpr hout)
    · exact ⟨_, hfault, hfault'⟩

/-- Settles O47: each meaning reads and writes other fields alone. -/
theorem timersDoNotInfluenceInstructions : Obligations.TimersDoNotInfluenceInstructions := by
  intro i s d u hquiet
  cases i with
  | cls =>
    have hinside : s.inside = [] := hquiet.resolve_left (not_not.mpr rfl)
    exact ⟨_, execCls_quiet s hinside, execCls_quiet (s.withTimers d u) hinside⟩
  | seImm x nn => exact sameButTimers_skip s d u
  | sneImm x nn => exact sameButTimers_skip s d u
  | seReg x y => exact sameButTimers_skip s d u
  | sneReg x y => exact sameButTimers_skip s d u
  | sub x y => exact execSub_sameButTimers s d u x y
  | drw x y n => exact execDrw_sameButTimers s d u x y n
  | addI x => exact execAddI_sameButTimers s d u x
  | ldVxI x => exact execLdVxI_sameButTimers s d u x
  | _ => exact ⟨_, rfl, rfl⟩

end

/-! ## The ports of the outside agents (70_reset_and_hazards.md R180 to R184) -/

section
variable {s : State}

theorem popped_emit (s : State) (o : Output) : s.popped.emit o = { s.popped with outputs := o :: s.outputs } := by
  rw [State.emit, popped_outputs]

theorem step_shared {op : SharedOp} (h : s.nextRequest = .shared op) : step s = .next (performShared s.popped op) :=
  step_request s h

theorem step_readCurrent_eq (h : s.nextRequest = .shared .readCurrent) :
    step s = .next { s.popped with outputs := .frame (s.slot s.cur) :: s.outputs } := by
  rw [step_readCurrent h, popped_emit]

end

/-- Settles O43: the answer is the slot that `cur` names, which a swap flips without writing a pixel. -/
theorem readAnswersCurrentSlot : Obligations.ReadAnswersCurrentSlot := by
  refine fun s => ⟨step_readCurrent_eq, fun hswap => ⟨_, step_swap hswap, fun hread => ?_⟩⟩
  have hslot (k : Slot) : State.slot { s.popped with cur := otherSlot s.cur } k = s.slot k :=
    (by cases k <;> rfl : _ = s.popped.slot k).trans (popped_slot s k)
  rw [step_readCurrent_eq hread, hslot, popped_outputs]

/-- Settles O46: each port is one write of its counter, or one output of what it reads. -/
theorem hostTimerPorts : Obligations.HostTimerPorts := by
  refine fun s u => ⟨step_shared, step_shared, fun h => ?timers, fun h => ?status⟩
  case timers => rw [step_shared h, performShared, popped_emit, popped_dt, popped_st]
  case status => rw [step_shared h, performShared, popped_emit, popped_status]

/-- Settles O48: a transaction on shared state has only the counters, `cur` and the outputs among what it changes. -/
theorem sharedTransactionsLeavePrivateState : Obligations.SharedTransactionsLeavePrivateState := by
  intro s op h
  have f := performShared_frame s.popped op
  refine ⟨_, step_shared h, f.agenda, fun r => ?reg, f.idx.trans (popped_idx s), f.pc.trans (popped_pc s),
    f.status.trans (popped_status s), f.stack.trans (popped_stack s), f.sp.trans (popped_sp s), fun a => ?byte,
    fun hop => (performShared_cur hop _).trans (popped_cur s)⟩
  case reg => rw [reg_of_v f.v, popped_reg]
  case byte => rw [readByte_of_mem f.mem, popped_readByte]

/-- Settles O50: the three ways of the load port exclude each other. -/
theorem loadPortAcceptsOrRefuses : Obligations.LoadPortAcceptsOrRefuses := by
  intro s image h
  have hstep : step s = load image s.popped := step_request s h
  have hboot : s.popped.boot = s.boot := popped_boot s
  obtain ⟨hawait, hlen, hload⟩ | ⟨hturn, hload⟩ | ⟨hawait, hlong, hload⟩ := load_cases s.popped image
  · rw [hboot] at hawait
    refine ⟨fun _ _ => ⟨_, hstep.trans hload, ?_⟩, fun hno => absurd hawait hno, fun _ hlong => absurd hlen (Nat.not_le.mpr hlong)⟩
    exact popped_outputs s ▸ rfl
  · rw [hboot] at hturn
    exact ⟨fun hawait => absurd hawait hturn, fun _ => hstep.trans hload, fun hawait => absurd hawait hturn⟩
  · rw [hboot] at hawait
    exact ⟨fun _ hlen => absurd hlen (Nat.not_le.mpr hlong), fun hno => absurd hawait hno, fun _ _ => hstep.trans hload⟩

/-- Settles O54: the values of `State.reset`, with both slots blank and no stack entry listed. -/
theorem resetValues : Obligations.ResetValues := by
  refine ⟨fun r => Vector.getElem_replicate .., rfl, rfl, rfl, fun _ => rfl, rfl, rfl, rfl, fun k r c => ?pixels, rfl⟩
  case pixels =>
    rw [State.pixel, reset_slot]
    exact gridPixel_blankGrid r c

/-- Settles O55: of the fields that a reset keeps, taking the request changes `free` and `agenda` alone. -/
theorem resetPortRestoresTheBlock : Obligations.ResetPortRestoresTheBlock := by
  intro s h
  have hstep : step s = .next (hostReset s.popped) := step_request s h
  rw [hstep, hostReset, popped_between, popped_outside, popped_outputs]

/-! ## What lasts until reset -/

section
variable {s t : State}

/-- In a FAULTED state no request but a reset touches the status, the registers, idx or pc (R165). -/
theorem perform_endsBadly {r : Request} (h : perform r s = .next t) (hbad : s.EndsBadly) (hreset : r ≠ .reset) :
    t.status = s.status ∧ t.v = s.v ∧ t.idx = s.idx ∧ t.pc = s.pc := by
  cases r with
  | step =>
    obtain rfl := Host.Outcome.next.inj ((cycle_disabled s fun he => not_running_of_endsBadly hbad he.1).symm.trans h)
    exact ⟨rfl, rfl, rfl, rfl⟩
  | shared op =>
    obtain rfl := Host.Outcome.next.inj h
    have f := performShared_frame s op
    exact ⟨f.status, f.v, f.idx, f.pc⟩
  | reset => exact absurd rfl hreset
  | load image =>
    rw [load_next h]
    exact ⟨rfl, rfl, rfl, rfl⟩
  | stop which =>
    obtain rfl := Host.Outcome.next.inj h
    exact ⟨stop_status .., stop_v .., stop_idx .., stop_pc ..⟩

/-- A stop lasts until a reset, whatever comes between (R99). -/
theorem perform_keeps_stops {r : Request} (h : perform r s = .next t) (hreset : r ≠ .reset) :
    (s.driverStopped = true → t.driverStopped = true) ∧ (s.tickStopped = true → t.tickStopped = true) := by
  have hsame (hd : t.driverStopped = s.driverStopped) (ht : t.tickStopped = s.tickStopped) :
      (s.driverStopped = true → t.driverStopped = true) ∧ (s.tickStopped = true → t.tickStopped = true) :=
    ⟨hd.trans, ht.trans⟩
  cases r with
  | step =>
    obtain ⟨-, rfl⟩ | ⟨-, -, -, rfl⟩ | ⟨-, -, -, w, -, hexec⟩ := cycle_next_cases s h
    · exact hsame rfl rfl
    · exact hsame (fetchFault_driverStopped s) (fetchFault_tickStopped s)
    · have hkept := (effect_of_exec hexec).kept
      exact hsame hkept.driverStopped hkept.tickStopped
  | shared op =>
    obtain rfl := Host.Outcome.next.inj h
    exact hsame (performShared_frame s op).driverStopped (performShared_frame s op).tickStopped
  | reset => exact absurd rfl hreset
  | load image =>
    rw [load_next h]
    exact ⟨id, id⟩
  | stop which =>
    obtain rfl := Host.Outcome.next.inj h
    cases which with
    | driver => exact ⟨fun _ => rfl, id⟩
    | ticks => exact ⟨id, fun _ => rfl⟩

theorem performShared_tick_stopped (h : s.tickStopped = true) : performShared s .tick = s := if_pos h

end

/-- Settles O56: a FAULTED state takes no cycle, and no other request but a reset touches what is listed. -/
theorem faultedUntilReset : Obligations.FaultedUntilReset := by
  intro s t hbad hreset hstep
  have hbad' : s.popped.EndsBadly := by rwa [State.EndsBadly, popped_status]
  obtain ⟨hstatus, hv, hidx, hpc⟩ := perform_endsBadly hstep hbad' hreset
  exact ⟨hstatus.trans (popped_status s), hv.trans (popped_v s), hidx.trans (popped_idx s), hpc.trans (popped_pc s)⟩

end Sys2Proof.Machine
end

section
/-! PROOFS about runs of any length: ticks, swaps and ticks without end, stopped schedules, and the run off the image. -/

namespace Sys2Proof.Machine

/-! ## Runs -/

theorem core_run_succ (M : Host.Core) {s t : M.State} (h : M.step s = .next t) (k : Nat) : M.run (k + 1) s = M.run k t := by
  rw [Host.Core.run, h]

section
variable {s t : State}

/-- A run whose first step answers a next state is the rest of the run from there. -/
theorem run_succ (h : step s = .next t) (k : Nat) : Host.Core.run core (k + 1) s = Host.Core.run core k t :=
  core_run_succ core h k

/-- A state with its agenda written out. -/
theorem eq_with_agenda {a : List Request} (h : s.agenda = a) : s = { s with agenda := a } := by subst h; rfl

/-- Requests in a row that do nothing leave all as it was. -/
theorem run_idle {r : Request} {rest : List Request} (k : Nat)
    (hidle : ∀ a, perform r { s with agenda := a } = .next { s with agenda := a }) (h : s.agenda = List.replicate k r ++ rest) :
    Host.Core.run core k s = .next { s with agenda := rest } := by
  induction k generalizing s with
  | zero => exact congrArg Host.Outcome.next (eq_with_agenda h)
  | succ k ih =>
    have hstep : step s = .next { s with agenda := List.replicate k r ++ rest } := (step_cons s h).trans (hidle _)
    rw [run_succ hstep k]
    exact ih hidle rfl

end

/-- Settles O52: a stop sets its flag and nothing else, the flag lasts until a reset, and while it stands each stopped request is
taken and nothing else. -/
theorem stopEndsTheSchedule : Obligations.StopEndsTheSchedule := by
  refine ⟨fun s => ⟨step_request s, step_request s, fun hstopped hdue => ?cycle, fun hstopped hreq => ?tick,
    fun t hstep hreset => ?lasts⟩, fun s k rest => ⟨fun hagenda => ?cycles, fun hagenda => ?ticks⟩⟩
  case cycle => exact step_disabled hdue (not_enabled_of_driverStopped hstopped)
  case tick => exact (step_shared hreq).trans (congrArg _ (performShared_tick_stopped ((popped_tickStopped s).trans hstopped)))
  case lasts =>
    have hkeeps := perform_keeps_stops hstep hreset
    rwa [popped_driverStopped, popped_tickStopped] at hkeeps
  case cycles =>
    rw [run_succ (step_cons s hagenda) k]
    exact run_idle (r := .step) k (fun _ => cycle_disabled _ (not_enabled_of_driverStopped rfl)) rfl
  case ticks =>
    rw [run_succ (step_cons s hagenda) k]
    exact run_idle (r := .shared .tick) k (fun _ => congrArg _ (performShared_tick_stopped rfl)) rfl

/-! ## Ticks and swaps (60_exceptions.md R169, 00_scope.md R27) -/

theorem performShared_tick {s : State} (h : s.tickStopped = false) : performShared s .tick = tick s :=
  if_neg (by rw [h]; exact Bool.false_ne_true)

/-- A tick and then `k` from a counter are `k + 1` from it. -/
theorem countDown_toNat_sub (t : Byte) (k : Nat) : (countDown t).toNat - k = t.toNat - (k + 1) := by
  rw [countDown_toNat]
  omega

/-- Settles O44, by induction on the number of ticks. -/
theorem ticksCountDownToZero : Obligations.TicksCountDownToZero := by
  intro k
  induction k with
  | zero => exact fun s rest hagenda _ => ⟨s, rfl, rfl, rfl, eq_with_agenda hagenda⟩
  | succ k ih =>
    intro s rest hagenda hticks
    have hstep : step s = .next (tick { s with agenda := List.replicate k (.shared .tick) ++ rest }) :=
      (step_cons s hagenda).trans (congrArg Host.Outcome.next (performShared_tick hticks))
    obtain ⟨t, hrun, hdt, hst, hframe⟩ := ih (tick { s with agenda := List.replicate k (.shared .tick) ++ rest }) rest rfl hticks
    exact ⟨t, (run_succ hstep k).trans hrun, hdt.trans (countDown_toNat_sub ..), hst.trans (countDown_toNat_sub ..), hframe⟩

/-- One round of a swap and a tick of outside agents that repeat the two without end. -/
theorem run_swap_tick {s : State} {ops : List SharedOp} (hagenda : s.agenda = [])
    (houtside : s.outside = .repeating [.shared .swap, .shared .tick] ops) (hticks : s.tickStopped = false) (k : Nat) :
    Host.Core.run core (k + 2) s = Host.Core.run core k (tick (swap s)) := by
  have hnext : s.nextRequest = .shared .swap := by rw [State.nextRequest, hagenda, houtside]; rfl
  have hpopped : s.popped = { s with agenda := [.shared .tick] } := by rw [State.popped, hagenda, houtside]; rfl
  have hswap : step s = .next (swap { s with agenda := [.shared .tick] }) := by rw [step_shared hnext, hpopped]; rfl
  have htick : step (swap { s with agenda := [.shared .tick] }) = .next (tick (swap { s with agenda := [] })) :=
    congrArg Host.Outcome.next (performShared_tick hticks)
  rw [run_succ hswap, run_succ htick, ← eq_with_agenda hagenda]

/-- Settles O45, by induction on the number of rounds: after each round the outside agents are where they were. -/
theorem swapsAndTicksWithoutEnd : Obligations.SwapsAndTicksWithoutEnd := by
  intro k
  induction k with
  | zero => exact fun s _ _ _ _ => ⟨s, rfl, rfl, rfl, rfl, rfl⟩
  | succ k ih =>
    intro s ops hagenda houtside hticks
    obtain ⟨t, hrun, hcur, hdt, hst, hframe⟩ := ih (tick (swap s)) ops hagenda houtside hticks
    refine ⟨t, (run_swap_tick hagenda houtside hticks (2 * k)).trans hrun, ?_, hdt.trans (countDown_toNat_sub ..),
      hst.trans (countDown_toNat_sub ..), hframe⟩
    have hflip : (k + 1) % 2 = 0 ↔ ¬ k % 2 = 0 := by omega
    have hother : (tick (swap s)).cur = otherSlot s.cur := rfl
    simp only [hcur, hother, otherSlot_otherSlot, hflip, ite_not]

/-! ## The run off the image (70_reset_and_hazards.md R191) -/

section
variable {s : State} {rest : List Request}

/-- The last requested cycle, at 0x1000 or at 0x0FFF. -/
theorem step_off_image_fault (hagenda : s.agenda = .step :: rest) (hrun : s.status = .running)
    (hdrv : s.driverStopped = false) (hpc : 0x0FFF ≤ s.pc.toNat) :
    step s = .next { s with agenda := rest, status := .faulted .fetchOob s.pc, boot := .started } := by
  rw [step_fetchOob (nextRequest_cons s hagenda) hrun hdrv hpc, popped_cons s hagenda]

/-- A requested cycle before the last, on two zero bytes. -/
theorem step_off_image_nop (hagenda : s.agenda = .step :: rest) (hrun : s.status = .running)
    (hdrv : s.driverStopped = false) (hpc : s.pc.toNat ≤ 0x0FFE)
    (hzero : ∀ a, s.pc.toNat ≤ a → a < 0x1000 → s.readByte a = some 0#8) :
    step s = .next { s with agenda := rest, pc := s.pc + 2#16, boot := .started } := by
  rw [step_nop (nextRequest_cons s hagenda) hrun hdrv (hzero _ (Nat.le_refl _) (by omega)) (hzero _ (Nat.le_succ _) (by omega)),
    popped_cons s hagenda]

end

/-- The run off the image with `n` NOPs before its fault, by induction on `n`. -/
theorem run_off_image (n : Nat) : ∀ (s : State) (rest : List Request), (0x1000 - s.pc.toNat) / 2 = n →
    s.agenda = List.replicate (n + 1) .step ++ rest → s.status = .running → s.driverStopped = false →
    s.pc.toNat ≤ 0x1000 → (∀ a, s.pc.toNat ≤ a → a < 0x1000 → s.readByte a = some 0#8) →
    ∃ t, Host.Core.run core (n + 1) s = .next t ∧ t.pc.toNat = (if s.pc.toNat % 2 = 0 then 0x1000 else 0x0FFF) ∧
      t = { s with pc := t.pc, boot := .started, status := .faulted .fetchOob t.pc, agenda := rest } := by
  induction n with
  | zero =>
    intro s rest hn hagenda hrun hdrv hpc _
    have hlast : s.pc.toNat = 0x1000 ∨ s.pc.toNat = 0x0FFF := by omega
    refine ⟨_, run_succ (step_off_image_fault hagenda hrun hdrv (by omega)) 0, ?_, rfl⟩
    obtain hpc | hpc := hlast
    · rw [hpc]; rfl
    · rw [hpc]; rfl
  | succ n ih =>
    intro s rest hn hagenda hrun hdrv hpc hzero
    have hstep := step_off_image_nop hagenda hrun hdrv (by omega) hzero
    have hnext : (s.pc + 2#16).toNat = s.pc.toNat + 2 := by
      rw [BitVec.toNat_add]
      exact Nat.mod_eq_of_lt (by simp; omega)
    obtain ⟨t, ht, htpc, hframe⟩ := ih { s with agenda := List.replicate (n + 1) .step ++ rest, pc := s.pc + 2#16, boot := .started }
      rest (by simp only [hnext]; omega) rfl hrun hdrv (by simp only [hnext]; omega)
      (fun a hlo hhi => hzero a (by simp only [hnext] at hlo; omega) hhi)
    refine ⟨t, (run_succ hstep _).trans ht, htpc.trans ?_, hframe⟩
    simp only [hnext, Nat.add_mod_right]

/-- Settles O60: each cycle on zero bytes is a NOP that brings pc two bytes nearer to the end, where the fetch faults. -/
theorem runningOffTheImageFaults : Obligations.RunningOffTheImageFaults :=
  fun s rest hagenda => run_off_image _ s rest rfl hagenda

end Sys2Proof.Machine
end
